-- ==== Sys2Proof/Word.lean ====
section
/-! DEFINITION. The machine's words and complex samples (00_scope.md R8, R9). -/

namespace Sys2Proof

/-- A 32-bit word (00 R8): every register and each half of a sample is one. -/
abbrev Word := BitVec 32

/-- A byte of the host's byte view of the aperture (20 R49). -/
abbrev Byte := BitVec 8

/-- A complex sample: a pair of binary32 words (00 R9). -/
structure Sample where
  re : Word
  im : Word
  deriving DecidableEq, Repr, Inhabited

/-- `CZERO`, whose halves are binary32 `+0.0` (00 R9). -/
def CZERO : Sample := ⟨0x00000000#32, 0x00000000#32⟩

end Sys2Proof
end

