-- ==== Sys2Proof/Config.lean ====
section
/-! DEFINITION. The implementation parameters of 00_scope.md R5 and the values the spec leaves open
(93_implementation_defined.md). Every `opaque` here has no body: no proof can see its value, so what is
proved holds for every value. `Config.drawn` is read through `Config.params` (Machine/Operands.lean),
which keeps only a draw that meets the constraints of R5. -/

namespace Sys2Proof

/-- The scalar parameters of 00 R5. `pReset` is the exponent of `N_RESET`, as `pMax` is that of `NMAX`. -/
structure Params where
  pMax   : Nat
  pReset : Nat
  fs     : Word
  minBw  : Word
  defLo  : Word
  defHi  : Word
  deriving DecidableEq, Repr, Inhabited

/-- The numerics of the FFT datapath (00 R12), given entry by entry so that a result always has the
stated length: `buildAt L h k` is `NUM.build(L, h)[k]`, `applyAt N w p j` is `NUM.apply(N, w, p)[j]`. -/
structure Numerics where
  buildAt : Nat → List Sample → Nat → Sample
  applyAt : Nat → List Sample → List Sample → Nat → Sample
  deriving Inhabited

namespace Config

/-- The scalar parameters the implementation chose (00 R5, 93 U8), before the constraints are checked. -/
opaque drawn : Params

/-- The numerics of this implementation: total and deterministic, otherwise uninterpreted (00 R12, 93 U3). -/
opaque num : Numerics

/-- Entry `t` of `Design(lo, hi, fs, m)`: total and deterministic, otherwise uninterpreted (41 R111, 93 U4). -/
opaque designAt (lo hi fs : Word) (m t : Nat) : Sample

/-- The `n`-th free word: a value the spec leaves to "any value" (93 U1, U2). -/
opaque freeWord (n : Nat) : Word

/-- The `n`-th free memory contents (93 U2). -/
opaque freeSamples (n : Nat) : List Sample

/-- How many host accesses come before the block's own step, drawn at each acceptance and each reset:
finite and otherwise open (70 R151, 93 U5). -/
opaque latency (n : Nat) : Nat

end Config

end Sys2Proof
end

