-- ==== Sys2Proof/Syntax.lean ====
section
/-! DEFINITION. The command set: one constructor per row of spec/opcode_table.json (30_encoding.md R71). -/

namespace Sys2Proof

/-- A command (30 R79). `n` and `m` are the `IMM24` operand, an exact unsigned integer (30 R69). -/
inductive Instr where
  | nop
  | config (n : Nat)
  | build (m : Nat)
  | restart
  | apply
  | setPassband
  | getPassband
  deriving DecidableEq, Repr

end Sys2Proof
end

