-- ==== Sys2Proof/WellFormed.lean ====
section
/-! DEFINITION. Which commands have an encoding (30_encoding.md R79). -/

namespace Sys2Proof

/-- The `IMM24` operand of a command, 0 where it must be 0 (30 R71). -/
def Instr.immediate : Instr → Nat
  | .config n => n
  | .build m => m
  | .nop | .restart | .apply | .setPassband | .getPassband => 0

/-- An operand outside `[0, 2^24)` "is an assembly error, not an encoding" (30 R79). -/
abbrev Instr.WellFormed (i : Instr) : Prop := i.immediate < 2 ^ 24

end Sys2Proof
end

