-- ==== Sys2Proof/Decode.lean ====
section
/-! DEFINITION. Decoding a command word, and encoding one (30_encoding.md R67 to R74, R79). -/

namespace Sys2Proof

/-- Why a word decodes to `ILLEGAL` (30 R73, R74). -/
inductive Illegal where
  /-- `OPC` is one of the reserved opcodes `0x07` to `0xFF` (30 R73). -/
  | reservedOpcode
  /-- `IMM24` is not 0 in a command that requires it to be 0 (30 R74). -/
  | nonzeroImmediate
  deriving DecidableEq, Repr

/-- `OPC = w[7:0]` (30 R67). -/
def opcOf (w : Word) : Nat := w.toNat % 2 ^ 8

/-- `IMM24 = w[31:8]`, unsigned, with no sign extension and no scaling (30 R69). -/
def imm24Of (w : Word) : Nat := w.toNat / 2 ^ 8

/-- A command that takes no operand: a nonzero `IMM24` makes the word illegal (30 R74). -/
def withoutOperand (imm : Nat) (i : Instr) : Except Illegal Instr :=
  if imm = 0 then .ok i else .error .nonzeroImmediate

/-- `decode(w)`, total on every word (30 R72). -/
def decode (w : Word) : Except Illegal Instr :=
  match opcOf w with
  | 0x00 => withoutOperand (imm24Of w) .nop
  | 0x01 => .ok (.config (imm24Of w))
  | 0x02 => .ok (.build (imm24Of w))
  | 0x03 => withoutOperand (imm24Of w) .restart
  | 0x04 => withoutOperand (imm24Of w) .apply
  | 0x05 => withoutOperand (imm24Of w) .setPassband
  | 0x06 => withoutOperand (imm24Of w) .getPassband
  | _ => .error .reservedOpcode

/-- The opcode of a command (30 R71). -/
def Instr.opcode : Instr → Nat
  | .nop => 0x00
  | .config _ => 0x01
  | .build _ => 0x02
  | .restart => 0x03
  | .apply => 0x04
  | .setPassband => 0x05
  | .getPassband => 0x06

/-- `zext_32(imm) << 8 | OPC` (30 R79). -/
def encode (i : Instr) : Word :=
  (BitVec.ofNat 32 i.immediate <<< 8) ||| BitVec.ofNat 32 i.opcode

/-- The command word whose `nbits` low bits are those of `w` and whose other bits are 0. The table has
one 32-bit format and the decoder takes the 32-bit value (20 R49). -/
def tableWord (nbits w : Nat) : Word := BitVec.ofNat 32 (w % 2 ^ nbits)

/-- What the decoder reads from an opcode-table word; more than 32 bits are no command word (30 R67). -/
def decodeTableWord (nbits w : Nat) : Option Instr :=
  if w % 2 ^ nbits < 2 ^ 32 then
    match decode (tableWord nbits w) with
    | .ok i => some i
    | .error _ => none
  else none

end Sys2Proof
end

