-- ==== Sys2Proof/Machine/Operands.lean ====
section
/-! DEFINITION. The operand forms: binary32 operands and their exact comparison (00_scope.md R9,
41_passband_commands.md R105), block sizes (00 R8), the parameters of 00 R5 as the commands read them,
and the sample sequences the commands compute with (40_ols_commands.md R86, 41 R106). -/

namespace Sys2Proof

/-! ### binary32 (00 R9) -/

/-- The 8-bit exponent field of a binary32 word. -/
def f32Exponent (w : Word) : Nat := w.toNat / 2 ^ 23 % 2 ^ 8

/-- The 23-bit fraction field of a binary32 word. -/
def f32Fraction (w : Word) : Nat := w.toNat % 2 ^ 23

/-- The sign bit of a binary32 word is bit 31 (20 R49). -/
def f32Negative (w : Word) : Bool := decide (2 ^ 31 ≤ w.toNat)

/-- `isFinite(w)`: `f32(w)` is a real number (00 R9). -/
def isFinite (w : Word) : Bool := decide (f32Exponent w ≠ 255)

/-- `|f32(w)| * 2^149` of a finite word: always an integer, since the least subnormal is `2^-149`. -/
def f32Magnitude (w : Word) : Nat :=
  if f32Exponent w = 0 then f32Fraction w
  else (2 ^ 23 + f32Fraction w) * 2 ^ (f32Exponent w - 1)

/-- `f32(w) * 2^149` of a finite word, exactly. Comparing these integers compares the real values. -/
def f32Scaled (w : Word) : Int :=
  if f32Negative w then -(f32Magnitude w : Int) else (f32Magnitude w : Int)

/-- Both halves of a sample are finite (00 R9). -/
def Sample.isFinite (c : Sample) : Bool := Sys2Proof.isFinite c.re && Sys2Proof.isFinite c.im

/-! ### Integers (00 R8, 30 R77) -/

/-- `isPow2(n)`: `n = 2^k` for some natural `k` (00 R8). -/
def isPow2 (n : Nat) : Bool := decide (n = 2 ^ Nat.log2 n)

/-- `u32(x)`: the 32-bit two's-complement encoding of a signed integer (00 R8). -/
def u32 (x : Int) : Word := BitVec.ofInt 32 x

/-! ### Passband validation (41 R105) -/

/-- The status codes of 60 R119. -/
inductive StatusCode where
  | ok
  | errIllegal
  | errRange
  | errClose
  | errNtaps
  deriving DecidableEq, Repr

/-- `validPB(lo, hi)` with the contents of `FSREG` and `MINBWREG` (41 R105). The comparisons are on
`f32Scaled`, so they are exact: `|f32(x)| > FS/2` is `2*|f32(x)| > FS`. -/
def validPB (fs minBw lo hi : Word) : StatusCode :=
  if isFinite lo = false ∨ isFinite hi = false then .errRange
  else if f32Scaled fs < 2 * |f32Scaled lo| ∨ f32Scaled fs < 2 * |f32Scaled hi| then .errRange
  else if f32Scaled hi - f32Scaled lo < f32Scaled minBw then .errClose
  else .ok

/-! ### Parameters (00 R5) -/

/-- The constraints of 00 R5 on the scalar parameters. -/
abbrev Params.Ok (p : Params) : Prop :=
  p.pMax ≤ 16 ∧ p.pReset ≤ p.pMax
    ∧ isFinite p.fs = true ∧ 0 < f32Scaled p.fs
    ∧ isFinite p.minBw = true ∧ 0 < f32Scaled p.minBw
    ∧ validPB p.fs p.minBw p.defLo p.defHi = .ok

/-- Parameters that meet 00 R5: those of the scenario of §8 (95 S1), with a threshold of 100 Hz. Used only where
`Config.drawn` breaks a constraint of R5, so that the constraints hold of every model (log 1). -/
def Params.scenario : Params :=
  { pMax := 16, pReset := 9, fs := 0x473B8000#32, minBw := 0x42C80000#32
    defLo := 0x43960000#32, defHi := 0x453B8000#32 }

namespace Config

/-- The parameters in force: the drawn ones, which may be any that meet 00 R5. -/
def params : Params := if drawn.Ok then drawn else Params.scenario

/-- `NMAX = 2^PMAX` (00 R5). -/
def nMax : Nat := 2 ^ params.pMax

/-- `N_RESET`, a power of two in `[1, NMAX]` (00 R5). -/
def nReset : Nat := 2 ^ params.pReset

/-- `FS` (00 R5). -/
def fs : Word := params.fs

/-- `MIN_BW` (00 R5). -/
def minBw : Word := params.minBw

/-- `DEF_LO` (00 R5). -/
def defLo : Word := params.defLo

/-- `DEF_HI` (00 R5). -/
def defHi : Word := params.defHi

/-- `ID` always reads "OLS1" (10 R19). -/
def id : Word := 0x4F4C5331#32

/-- `Design(lo, hi, fs, m)`: a sequence of `m` samples (00 R5, 41 R111). -/
def design (lo hi fs : Word) (m : Nat) : List Sample := (List.range m).map (designAt lo hi fs m)

end Config

/-! ### Sequences of samples -/

/-- `n` entries `CZERO`. -/
def zeros (n : Nat) : List Sample := List.replicate n CZERO

/-- Entry `k` of a memory; `CZERO` where there is none, which no check of 20 R48 lets an access reach. -/
def entry (v : List Sample) (k : Nat) : Sample := v.getD k CZERO

/-- The half of a sample that an aligned offset names: `re` when `a[2] = 0`, `im` when `a[2] = 1` (20 R47). -/
def Sample.half (c : Sample) (a : Nat) : Word := if a / 4 % 2 = 0 then c.re else c.im

/-- A sample with the half that an aligned offset names replaced (20 R47). -/
def Sample.setHalf (c : Sample) (a : Nat) (v : Word) : Sample :=
  if a / 4 % 2 = 0 then { c with re := v } else { c with im := v }

/-- A memory with the half of entry `k` that the aligned offset `a` names replaced (20 R53). -/
def setEntryHalf (v : List Sample) (k a : Nat) (w : Word) : List Sample := v.set k ((entry v k).setHalf a w)

/-- Byte `i` of a word in the aperture's little-endian order (20 R49). -/
def byteOf (w : Word) (i : Nat) : Byte := (w >>> (8 * i)).setWidth 8

/-- `hpad[n] = (n < m) ? COEF[n] : CZERO` for `n` in `[0, L)` (40 R86). -/
def zeroPad (L m : Nat) (coef : List Sample) : List Sample :=
  (List.range L).map fun n => if n < m then entry coef n else CZERO

/-- `NUM.build(L, h)`, a sequence of `L` samples (00 R12). -/
def Numerics.build (num : Numerics) (L : Nat) (h : List Sample) : List Sample := (List.range L).map (num.buildAt L h)

/-- `NUM.apply(N, w, p)`, a sequence of `N` samples (00 R12). -/
def Numerics.apply (num : Numerics) (N : Nat) (w p : List Sample) : List Sample :=
  (List.range N).map (num.applyAt N w p)

/-- The coefficients of a rebuild at block size `n`: `Design(DEF_LO, DEF_HI, FS, n + 1)` (42 R113). -/
def defaultCoef (n : Nat) : List Sample := Config.design Config.defLo Config.defHi Config.fs (n + 1)

/-- The profile of a rebuild at block size `n`: all `n + 1` coefficients, zero-padded (42 R113). -/
def defaultProfile (n : Nat) : List Sample := Config.num.build (2 * n) (zeroPad (2 * n) (n + 1) (defaultCoef n))

/-- `WORK` with the history `[0, N)` set to `CZERO` (40 R91, R93). -/
def zeroHistory (N : Nat) (work : List Sample) : List Sample := zeros N ++ work.drop N

/-- `WORK[k] <- WORK[N + k]` for `k` in `[0, N)` (40 R95). -/
def saveHistory (N : Nat) (work : List Sample) : List Sample :=
  (List.range N).map (fun k => entry work (N + k)) ++ work.drop N

end Sys2Proof
end

