-- ==== Sys2Proof/Machine/State.lean ====
section
/-! DEFINITION. The state of one OLS-FIR instance (10_state.md R15), the host agent beside it (00_scope.md R7),
why a step can stop, and the state after power-on reset (10 R43). -/

namespace Sys2Proof.Machine

/-- The stored registers of 10 R18 and R35, except `STATUS`. `ID`, `NMAXREG`, `FSREG` and `MINBWREG` are
constants (10 R17) and are read from Config. -/
structure Regs where
  cmd     : Word
  result  : Word
  arg0    : Word
  arg1    : Word
  res0    : Word
  res1    : Word
  blkSize : Word
  fftLen  : Word
  nTaps   : Word
  pbLo    : Word
  pbHi    : Word
  deriving DecidableEq, Repr

/-- The fields of `STATUS` (10 R21). Bits 31:4 read as 0 and have no storage. -/
structure Status where
  busy  : Bool
  first : Bool
  fatal : Bool
  proto : Bool
  deriving DecidableEq, Repr

/-- The four sample memories (10 R36 to R39), each the list of its entries in order of index. -/
structure Memory where
  coef    : List Sample
  profile : List Sample
  work    : List Sample
  out     : List Sample
  deriving DecidableEq, Repr

/-- One access the host makes (20 R63, 30 R80, R81). -/
inductive HostAct where
  /-- `MemRead(offset, width)`, width in bytes; `rd OFF` is `read OFF 4` (30 R80). -/
  | read (offset width : Nat)
  /-- `MemWrite(offset, width, value)`; `wr OFF, VAL` is `write OFF 4 VAL` (30 R80). -/
  | write (offset width : Nat) (value : Word)
  /-- `wait`: read `STATUS` again and again while its bit 0 is 1 (30 R81). -/
  | wait
  /-- Assert power-on reset (20 R63, 70 R136). -/
  | powerOnReset
  deriving DecidableEq, Repr

/-- The host agent: the accesses it has still to make, in order, and the values its reads returned,
newest first. The model's own form of the agent of 00 R7 (log 3). -/
structure HostAgent where
  script   : List HostAct
  received : List Word
  deriving DecidableEq, Repr

/-- The whole machine. `regs`, `status`, `mem` and `initialising` are the spec's (10 R15, 70 R136); `host`,
`delay` and `draws` are the model's (log 3, log 4, log 5). -/
structure State where
  regs         : Regs
  status       : Status
  mem          : Memory
  initialising : Bool
  host         : HostAgent
  delay        : Nat
  draws        : Nat
  deriving DecidableEq, Repr

/-- Why the machine stops with a fault. None of the three abnormal outcomes of 60 R118 is one: each is a
next state with its code or its sticky bit. -/
inductive Fault where
  /-- Raised by `step` alone: `STATUS.FATAL = 1` and the host has no access left, so no agent has a step
  (93 U2 "stuck"; 60 R126). Safe: the spec gives no step here. -/
  | stopped
  deriving DecidableEq, Repr

/-- Why the machine gives no meaning to what it is asked. -/
inductive Refusal where
  /-- Raised by an arm of `exec` for a command with no meaning yet; no arm raises it now. Safe. -/
  | notModelled (mnemonic : String)
  /-- Raised by `step` for a host access at an offset outside the aperture `[0, 2^24)` (20 R44): host
  behaviour to which the spec gives no meaning (20 R63, 93 U9 "refuse"). Safe. -/
  | outsideAperture
  deriving DecidableEq, Repr

/-- The sample memories of 20 R45, which the host reaches through windows. -/
inductive Window where
  | coef
  | profile
  | work
  | out
  deriving DecidableEq, Repr

/-- The registers of 10 R18. -/
inductive RegName where
  | id
  | cmd
  | status
  | result
  | arg0
  | arg1
  | res0
  | res1
  | blkSize
  | fftLen
  | nTaps
  | nMaxReg
  | fsReg
  | minBwReg
  deriving DecidableEq, Repr

/-- The canonical form of the memories at block size `n`: the sizes of 10 R42. A list of that length has
exactly one way to hold given contents, so equal memories are equal data. -/
abbrev Memory.wf (n : Nat) (m : Memory) : Prop :=
  m.coef.length = n + 1 ∧ m.profile.length = 2 * n ∧ m.work.length = 2 * n ∧ m.out.length = n

/-- The machine right after power-on reset has finished (10 R43), with no host access pending. -/
def State.reset : State :=
  { regs :=
      { cmd := 0x00000000#32, result := 0x00000000#32
        arg0 := 0x00000000#32, arg1 := 0x00000000#32
        res0 := 0x00000000#32, res1 := 0x00000000#32
        blkSize := BitVec.ofNat 32 Config.nReset
        fftLen := BitVec.ofNat 32 (2 * Config.nReset)
        nTaps := BitVec.ofNat 32 (Config.nReset + 1)
        pbLo := Config.defLo, pbHi := Config.defHi }
    status := { busy := false, first := true, fatal := false, proto := false }
    mem :=
      { coef := defaultCoef Config.nReset
        profile := defaultProfile Config.nReset
        work := zeros (2 * Config.nReset)
        out := zeros Config.nReset }
    initialising := false
    host := { script := [], received := [] }
    delay := 0
    draws := 0 }

end Sys2Proof.Machine
end

