-- ==== Sys2Proof/Machine/Flags.lean ====
section
/-! DEFINITION. The `STATUS` word and the status codes (10_state.md R21, 60_exceptions.md R119), and the sizes the
commands compute with. -/

namespace Sys2Proof.Machine

/-- The code of 60 R119, a signed integer. -/
def codeValue : StatusCode → Int
  | .ok => 0
  | .errIllegal => -1
  | .errRange => -2
  | .errClose => -3
  | .errNtaps => -4

/-- The `RESULT` word of a status code: `u32(code)` (10 R30). -/
def codeWord (c : StatusCode) : Word := u32 (codeValue c)

/-- One flag at its bit of `STATUS`. -/
def flagBit (b : Bool) (i : Nat) : Word := if b then 1#32 <<< i else 0#32

/-- The fields of 10 R21 at bits 0 to 3; bits 31:4 read as 0. -/
def Status.word (f : Status) : Word :=
  flagBit f.busy 0 ||| flagBit f.first 1 ||| flagBit f.fatal 2 ||| flagBit f.proto 3

/-- What a read of `STATUS` returns: `0x00000001` during initialisation (70 R136), so a protocol fault made
then shows only in the state reset produces (70 R137, log 7). -/
def State.statusWord (s : State) : Word :=
  if s.initialising then 0x00000001#32 else s.status.word

/-- `N = BLKSIZE` (40 "Throughout"). -/
def State.blockSize (s : State) : Nat := s.regs.blkSize.toNat

/-- `L = FFTLEN` (40 "Throughout"). -/
def State.fftLength (s : State) : Nat := s.regs.fftLen.toNat

end Sys2Proof.Machine
end

