-- ==== Sys2Proof/Machine/Ops.lean ====
section
/-! DEFINITION. The named operations: ending a command, the three abnormal outcomes (60_exceptions.md), the
aperture (20_memory.md), and power-on reset (70_reset_and_hazards.md). -/

namespace Sys2Proof.Machine

/-! ### Ending a command and the abnormal outcomes -/

/-- `finish(code)`: `RESULT <- u32(code)`, `BUSY <- 0` (00 R10). -/
def finish (c : StatusCode) (s : State) : State :=
  { s with regs.result := codeWord c, status.busy := false }

/-- An illegal word executes as `finish(-1)` (30 R72, R73). -/
def execIllegal (s : State) : State := finish .errIllegal s

/-- `raise PROTO(info)`: `STATUS.PROTO <- 1`; the cause is not recorded (60 R123, 93 U10). -/
def raiseProto (s : State) : State := { s with status.proto := true }

/-- Registers of which the spec says nothing: eleven free draws from the `d`-th on (93 U2). -/
def anyRegs (d : Nat) : Regs :=
  { cmd := Config.freeWord d, result := Config.freeWord (d + 1)
    arg0 := Config.freeWord (d + 2), arg1 := Config.freeWord (d + 3)
    res0 := Config.freeWord (d + 4), res1 := Config.freeWord (d + 5)
    blkSize := Config.freeWord (d + 6), fftLen := Config.freeWord (d + 7)
    nTaps := Config.freeWord (d + 8), pbLo := Config.freeWord (d + 9), pbHi := Config.freeWord (d + 10) }

/-- Memories of which the spec says nothing: four free draws from the `d`-th on (93 U2). -/
def anyMemory (d : Nat) : Memory :=
  { coef := Config.freeSamples d, profile := Config.freeSamples (d + 1)
    work := Config.freeSamples (d + 2), out := Config.freeSamples (d + 3) }

/-- Every element of the block other than `STATUS` takes any value (60 R126; 70 R136, log 8). -/
def scramble (s : State) : State :=
  { s with regs := anyRegs s.draws, mem := anyMemory (s.draws + 11), draws := s.draws + 15 }

/-- `raise FATAL(info)`: `STATUS.FATAL <- 1`, `STATUS.BUSY <- 0`; every element other than `ID` and `STATUS`
then holds any value (60 R125, R126). `FIRST` and `PROTO` stay (10 R23, 60 R124; log 6). -/
def raiseFatal (s : State) : State :=
  { scramble s with status := { s.status with fatal := true, busy := false } }

/-! ### The aperture -/

/-- The register at a word offset of the REG region (10 R18). -/
def RegName.ofOffset (a : Nat) : Option RegName :=
  match a with
  | 0x00 => some .id
  | 0x04 => some .cmd
  | 0x08 => some .status
  | 0x0C => some .result
  | 0x10 => some .arg0
  | 0x14 => some .arg1
  | 0x18 => some .res0
  | 0x1C => some .res1
  | 0x20 => some .blkSize
  | 0x24 => some .fftLen
  | 0x28 => some .nTaps
  | 0x2C => some .nMaxReg
  | 0x30 => some .fsReg
  | 0x34 => some .minBwReg
  | _ => none

/-- What a register holds (10 R19 to R32). -/
def State.readReg (s : State) : RegName → Word
  | .id => Config.id
  | .cmd => s.regs.cmd
  | .status => s.statusWord
  | .result => s.regs.result
  | .arg0 => s.regs.arg0
  | .arg1 => s.regs.arg1
  | .res0 => s.regs.res0
  | .res1 => s.regs.res1
  | .blkSize => s.regs.blkSize
  | .fftLen => s.regs.fftLen
  | .nTaps => s.regs.nTaps
  | .nMaxReg => BitVec.ofNat 32 Config.nMax
  | .fsReg => Config.fs
  | .minBwReg => Config.minBw

/-- The window an offset lies in and its base, or none in the unmapped regions (20 R45). -/
def windowAt (a : Nat) : Option (Window × Nat) :=
  if 0x100000 ≤ a ∧ a < 0x200000 then some (.coef, 0x100000)
  else if 0x200000 ≤ a ∧ a < 0x300000 then some (.profile, 0x200000)
  else if 0x300000 ≤ a ∧ a < 0x400000 then some (.work, 0x300000)
  else if 0x400000 ≤ a ∧ a < 0x500000 then some (.out, 0x400000)
  else none

/-- The current size of a window at block size `n` (20 R48). -/
def windowSize (n : Nat) : Window → Nat
  | .coef => n + 1
  | .profile => 2 * n
  | .work => 2 * n
  | .out => n

/-- The entries of the memory behind a window. -/
def Memory.get (m : Memory) : Window → List Sample
  | .coef => m.coef
  | .profile => m.profile
  | .work => m.work
  | .out => m.out

/-- The memories with the one behind a window replaced. -/
def Memory.put (m : Memory) (w : Window) (v : List Sample) : Memory :=
  match w with
  | .coef => { m with coef := v }
  | .profile => { m with profile := v }
  | .work => { m with work := v }
  | .out => { m with out := v }

/-- The entry index of an offset in a window with base `B`: `k = (a - B) >> 3` (20 R47). -/
def entryIndex (a base : Nat) : Nat := (a - base) / 8

/-- The 32-bit contents at an aligned offset: a register or half of a window entry, none where no location
is (unmapped, or beyond the window's current size; 20 R48, R66). No check of width or `BUSY`, no effect. -/
def State.wordAt (s : State) (a : Nat) : Option Word :=
  if a < 0x100 then (RegName.ofOffset a).map s.readReg
  else
    match windowAt a with
    | none => none
    | some (w, base) =>
      if entryIndex a base < windowSize s.blockSize w then
        some ((entry (s.mem.get w) (entryIndex a base)).half a)
      else none

/-- The byte at offset `a` of the aperture, little-endian (20 R49). -/
def State.byteAt (s : State) (a : Nat) : Option Byte :=
  (s.wordAt (a - a % 4)).map fun w => byteOf w (a % 4)

/-- `ANY`: a free draw of 32 bits (20 R52, 93 U1). -/
def anyWord (s : State) : Word × State := (Config.freeWord s.draws, { s with draws := s.draws + 1 })

/-- `MemRead(a, n)`, `n` in bytes (20 R52). -/
def memRead (a n : Nat) (s : State) : Word × State :=
  if s.status.fatal then
    if n = 4 ∧ a = 0x00 then (Config.id, s)
    else if n = 4 ∧ a = 0x08 then (s.statusWord, s)
    else anyWord s
  else if n ≠ 4 ∨ a % 4 ≠ 0 then anyWord (raiseProto s)
  else if s.status.busy = true ∧ ¬(a = 0x00 ∨ a = 0x08) then anyWord (raiseProto s)
  else
    match s.wordAt a with
    | some v => (v, s)
    | none => anyWord (raiseProto s)

/-- A command is accepted: `CMD <- v`, `STATUS.BUSY <- 1` (60 R121). How long it takes is drawn (70 R151). -/
def acceptCommand (v : Word) (s : State) : State :=
  { s with regs.cmd := v, status.busy := true, delay := Config.latency s.draws, draws := s.draws + 1 }

/-- A write to a register of the REG region: `CMD`, `ARG0` and `ARG1` take it, every other offset is a
protocol fault, read-only or unmapped (20 R53, R57, R66). -/
def writeReg (a : Nat) (v : Word) (s : State) : State :=
  match RegName.ofOffset a with
  | some .cmd => acceptCommand v s
  | some .arg0 => { s with regs.arg0 := v }
  | some .arg1 => { s with regs.arg1 := v }
  | _ => raiseProto s

/-- A write to half of a window entry; `PROFILE` is read-only, and an entry at or beyond the current size
does not exist (20 R53). -/
def writeWindow (w : Window) (base a : Nat) (v : Word) (s : State) : State :=
  if w = .profile then raiseProto s
  else if entryIndex a base < windowSize s.blockSize w then
    { s with mem := s.mem.put w (setEntryHalf (s.mem.get w) (entryIndex a base) a v) }
  else raiseProto s

/-- `MemWrite(a, n, v)`, `n` in bytes (20 R53). -/
def memWrite (a n : Nat) (v : Word) (s : State) : State :=
  if s.status.fatal then s
  else if n ≠ 4 ∨ a % 4 ≠ 0 then raiseProto s
  else if s.status.busy then raiseProto s
  else if a < 0x100 then writeReg a v s
  else
    match windowAt a with
    | some (w, base) => writeWindow w base a v s
    | none => raiseProto s

/-! ### Power-on reset (70 R136, R137) -/

/-- Reset is asserted: the in-flight command is abandoned, `STATUS` reads `0x00000001`, and until
initialisation ends the spec says nothing of the other elements (log 8). -/
def assertReset (s : State) : State :=
  { scramble s with
    status := { busy := true, first := false, fatal := false, proto := false }
    initialising := true
    delay := Config.latency (s.draws + 15)
    draws := s.draws + 16 }

/-- Initialisation ends: every element holds the value of 10 R43, but that a protocol fault made during
initialisation is in the `PROTO` bit (70 R137). The host agent goes on from where it is. -/
def finishReset (s : State) : State :=
  { State.reset with
    status := { State.reset.status with proto := s.status.proto }
    host := s.host, delay := s.delay, draws := s.draws }

end Sys2Proof.Machine
end

