-- ==== Sys2Proof/Machine/Access.lean ====
section
/-! DEFINITION. The host agent's accesses, and which agent moves (00_scope.md R7, 20_memory.md R59, R63,
60_exceptions.md R121). -/

namespace Sys2Proof.Machine

/-- The engine has a step: a command is in flight, no fatal fault, initialisation over (60 R121). -/
def engineReady (s : State) : Bool := s.status.busy && !s.status.fatal && !s.initialising

/-- It is the block's turn, not the host's: the drawn number of host accesses has passed, or the host has
none left (20 R59, 70 R151, log 4). -/
def blockTurn (s : State) : Bool := s.delay == 0 || s.host.script.isEmpty

/-- The host's next access is taken off its script. -/
def takeAccess (rest : List HostAct) (s : State) : State :=
  { s with host.script := rest, delay := s.delay - 1 }

/-- The value of a read, kept for the host. -/
def receive (r : Word × State) : State := { r.2 with host.received := r.1 :: r.2.host.received }

/-- `wait` goes on reading `STATUS` while its bit 0 is 1 (30 R81). -/
def pollStatus (r : Word × State) : State :=
  if r.1.getLsbD 0 then { r.2 with host.script := .wait :: r.2.host.script } else r.2

/-- One host access (20 R52, R53, R63; 30 R80, R81; 70 R136). An offset outside the aperture is refused
(20 R44, 93 U9). -/
def hostAccess (act : HostAct) (s : State) : Host.Outcome State Fault Refusal :=
  match act with
  | .read a n => if a < 2 ^ 24 then .next (receive (memRead a n s)) else .refused .outsideAperture
  | .write a n v => if a < 2 ^ 24 then .next (memWrite a n v s) else .refused .outsideAperture
  | .wait => .next (pollStatus (memRead 0x08 4 s))
  | .powerOnReset => .next (assertReset s)

/-- The host's turn: its next access; with none left, a stopped block is stuck (60 R126, 93 U2) and any other
waits (60 R135). -/
def hostStep (s : State) : Host.Outcome State Fault Refusal :=
  match s.host.script with
  | [] => if s.status.fatal then .fault .stopped else .next s
  | act :: rest => hostAccess act (takeAccess rest s)

/-- The state whose in-flight command is the word `w`, with the engine to move: `CMD` holds the word, `BUSY`
is 1, and nothing stands in the engine's way (60 R121). -/
def inFlight (w : Word) (s : State) : State :=
  { s with
    regs.cmd := w
    status := { s.status with busy := true, fatal := false }
    initialising := false
    delay := 0 }

end Sys2Proof.Machine
end

