-- ==== Sys2Proof/Machine/Filter.lean ====
section
/-! DEFINITION. The filter commands BUILD, RESTART and APPLY (40_ols_commands.md). Each is written for any
numerics `num` (00_scope.md R12), so that what follows from `ACC` can be stated of every `num` that has it; the
machine runs it with `Config.num`. -/

namespace Sys2Proof.Machine

/-- `BUILD m` with given numerics (40 R86). -/
def buildWith (num : Numerics) (m : Nat) (s : State) : State :=
  if m < 1 ∨ m > s.blockSize + 1 then finish .errNtaps s
  else
    finish .ok
      { s with
        mem.profile := num.build s.fftLength (zeroPad s.fftLength m s.mem.coef)
        regs.nTaps := BitVec.ofNat 32 m }

/-- `BUILD m` (40 R86). -/
def execBuild (m : Nat) (s : State) : Host.Outcome State Fault Refusal :=
  .next (buildWith Config.num m s)

/-- `RESTART`: the history is zeroed (40 R91). -/
def execRestart (s : State) : Host.Outcome State Fault Refusal :=
  .next (finish .ok { s with mem.work := zeroHistory s.blockSize s.mem.work })

/-- The work buffer `APPLY` transforms: on the first call the history is zeroed (40 R93). -/
def firstCallWork (s : State) : List Sample :=
  if s.status.first then zeroHistory s.blockSize s.mem.work else s.mem.work

/-- `APPLY` with given numerics (40 R92): first call, output, save. -/
def applyWith (num : Numerics) (s : State) : State :=
  finish .ok
    { s with
      mem.out := num.apply s.blockSize ((firstCallWork s).take (2 * s.blockSize))
        (s.mem.profile.take (2 * s.blockSize))
      mem.work := saveHistory s.blockSize (firstCallWork s)
      status.first := false }

/-- `APPLY` (40 R92). -/
def execApply (s : State) : Host.Outcome State Fault Refusal := .next (applyWith Config.num s)

end Sys2Proof.Machine
end

