-- ==== Sys2Proof/Machine/Passband.lean ====
section
/-! DEFINITION. The passband commands SET_PASSBAND and GET_PASSBAND (41_passband_commands.md). -/

namespace Sys2Proof.Machine

/-- The accepted `SET_PASSBAND`: design, rebuild, record the edges (41 R106). -/
def setPassband (lo hi : Word) (s : State) : State :=
  { s with
    mem.coef := Config.design lo hi Config.fs (s.blockSize + 1)
    mem.profile := Config.num.build s.fftLength
      (zeroPad s.fftLength (s.blockSize + 1) (Config.design lo hi Config.fs (s.blockSize + 1)))
    regs.nTaps := BitVec.ofNat 32 (s.blockSize + 1)
    regs.pbLo := lo
    regs.pbHi := hi }

/-- `SET_PASSBAND`: a code other than 0 changes nothing else (41 R106, R107). -/
def execSetPassband (s : State) : Host.Outcome State Fault Refusal :=
  .next
    (if validPB Config.fs Config.minBw s.regs.arg0 s.regs.arg1 = .ok then
      finish .ok (setPassband s.regs.arg0 s.regs.arg1 s)
    else finish (validPB Config.fs Config.minBw s.regs.arg0 s.regs.arg1) s)

/-- `GET_PASSBAND`: `RES0 <- PB_LO`, `RES1 <- PB_HI` (41 R109). -/
def execGetPassband (s : State) : Host.Outcome State Fault Refusal :=
  .next (finish .ok { s with regs.res0 := s.regs.pbLo, regs.res1 := s.regs.pbHi })

end Sys2Proof.Machine
end

