-- ==== Sys2Proof/Machine/Workspace.lean ====
section
/-! DEFINITION. The workspace commands CONFIG and NOP (42_workspace_commands.md). -/

namespace Sys2Proof.Machine

/-- `CONFIG n` accepts `n`: a power of two in `[1, NMAX]` (42 R113, R114). -/
def validBlockSize (n : Nat) : Bool := isPow2 n && decide (n ≤ Config.nMax)

/-- The rebuild of the whole instance at block size `n` (42 R113). -/
def rebuild (n : Nat) (s : State) : State :=
  { s with
    regs.blkSize := BitVec.ofNat 32 n
    regs.fftLen := BitVec.ofNat 32 (2 * n)
    regs.nTaps := BitVec.ofNat 32 (n + 1)
    regs.pbLo := Config.defLo
    regs.pbHi := Config.defHi
    regs.res0 := 0x00000000#32
    regs.res1 := 0x00000000#32
    mem := { coef := defaultCoef n, profile := defaultProfile n, work := zeros (2 * n), out := zeros n }
    status.first := true }

/-- `CONFIG n`: the fatal fault on an invalid block size, else the rebuild (42 R113, R114). -/
def execConfig (n : Nat) (s : State) : Host.Outcome State Fault Refusal :=
  .next (if validBlockSize n then finish .ok (rebuild n s) else raiseFatal s)

/-- `NOP`: `finish(0)` (42 R117). -/
def execNop (s : State) : Host.Outcome State Fault Refusal := .next (finish .ok s)

end Sys2Proof.Machine
end

