-- ==== Sys2Proof/Machine/Dispatch.lean ====
section
/-! DEFINITION. One arm per command (30_encoding.md R71). -/

namespace Sys2Proof.Machine

def exec (i : Instr) (s : State) : Host.Outcome State Fault Refusal :=
  match i with
  | .nop => Sys2Proof.Machine.execNop s
  | .config n => Sys2Proof.Machine.execConfig n s
  | .build m => Sys2Proof.Machine.execBuild m s
  | .restart => Sys2Proof.Machine.execRestart s
  | .apply => Sys2Proof.Machine.execApply s
  | .setPassband => Sys2Proof.Machine.execSetPassband s
  | .getPassband => Sys2Proof.Machine.execGetPassband s

end Sys2Proof.Machine
end

