-- ==== Sys2Proof/Machine/Step.lean ====
section
/-! DEFINITION. One step of the machine: the engine's, the end of reset initialisation, or one host access
(00_scope.md R7, 20_memory.md R59). -/

namespace Sys2Proof.Machine

/-- The engine's step: the whole command in `CMD`, or `finish(-1)` for an illegal word (60 R121, 30 R72). -/
def engineStep (s : State) : Host.Outcome State Fault Refusal :=
  match decode s.regs.cmd with
  | .ok i => exec i s
  | .error _ => .next (execIllegal s)

/-- One step: a single interleaving of host accesses and whole commands (20 R59). -/
def step (s : State) : Host.Outcome State Fault Refusal :=
  if blockTurn s && s.initialising then .next (finishReset s)
  else if blockTurn s && engineReady s then engineStep s
  else hostStep s

/-- `s` with the command word accepted and the engine to move (log 3). -/
def State.withFetchWord (s : State) (nbits w : Nat) : State := inFlight (tableWord nbits w) s

end Sys2Proof.Machine
end

