-- ==== Sys2Proof/Machine/HostSyntax.lean ====
section
/-! DEFINITION. The host program syntax: the primitive lines and the pseudo-instructions' expansions
(30_encoding.md R80, R81). A program is a list of host accesses. -/

namespace Sys2Proof.Machine.HostSyntax

/-- `wr OFF, VAL` (30 R80). -/
def wr (off : Nat) (v : Word) : List HostAct := [.write off 4 v]

/-- `rd OFF -> name` (30 R80); the value is the newest of `host.received`. -/
def rd (off : Nat) : List HostAct := [.read off 4]

/-- `wait` (30 R81). -/
def wait : List HostAct := [.wait]

/-- `cmd C` (30 R81). -/
def cmd (c : Instr) : List HostAct := wr 0x04 (encode c) ++ wait

/-- `result -> r` (30 R81). -/
def result : List HostAct := rd 0x0C

/-- The base of a window (20 R45). -/
def windowBase : Window → Nat
  | .coef => 0x100000
  | .profile => 0x200000
  | .work => 0x300000
  | .out => 0x400000

/-- `wrc W, k, re, im` (30 R81). -/
def wrc (w : Window) (k : Nat) (c : Sample) : List HostAct :=
  wr (windowBase w + 8 * k) c.re ++ wr (windowBase w + 8 * k + 4) c.im

/-- `rdc W, k -> (re, im)` (30 R81). -/
def rdc (w : Window) (k : Nat) : List HostAct :=
  rd (windowBase w + 8 * k) ++ rd (windowBase w + 8 * k + 4)

/-- `wrc` of consecutive entries from `k` on. -/
def wrcFrom (w : Window) (k : Nat) : List Sample → List HostAct
  | [] => []
  | c :: cs => wrc w k c ++ wrcFrom w (k + 1) cs

/-- `loadcoef c0, ..., c(m-1)` (30 R81). -/
def loadcoef (cs : List Sample) : List HostAct := wrcFrom .coef 0 cs ++ cmd (.build cs.length)

/-- `block x0, ..., x(N-1)`, where `N` is the number of samples given (30 R81). -/
def block (xs : List Sample) : List HostAct := wrcFrom .work xs.length xs ++ cmd .apply

/-- `setpb lo, hi` (30 R81). -/
def setpb (lo hi : Word) : List HostAct := wr 0x10 lo ++ wr 0x14 hi ++ cmd .setPassband

/-- `getpb -> (lo, hi)` (30 R81). -/
def getpb : List HostAct := cmd .getPassband ++ rd 0x18 ++ rd 0x1C

end Sys2Proof.Machine.HostSyntax
end

