-- ==== Sys2Proof/Machine/Numerics.lean ====
section
/-! DEFINITION. The real and complex values of samples (00_scope.md R9), the transforms (00 R11), the
exact-arithmetic references and the accuracy property `ACC` (00 R12, R13). No step of the machine computes with
these: statements compare what the numerics give with them. -/

namespace Sys2Proof

/-- `f32(w)` of a finite word, a real number (00 R9). Read only where `isFinite w`. -/
noncomputable def f32 (w : Word) : ℝ := (f32Scaled w : ℝ) / 2 ^ 149

/-- `val(c) = f32(c.re) + i*f32(c.im)` (00 R9). -/
noncomputable def Sample.val (c : Sample) : ℂ := ⟨f32 c.re, f32 c.im⟩

/-- `val(v[k])` as a function of `k`. -/
noncomputable def values (v : List Sample) (k : ℕ) : ℂ := (entry v k).val

/-- Every sample is finite in both halves. -/
def allFinite (v : List Sample) : Bool := v.all Sample.isFinite

/-- `omega = exp(2*pi*i/L)` (00 R11). -/
noncomputable def omega (L : ℕ) : ℂ := Complex.exp (2 * Real.pi * Complex.I / L)

/-- `DFT_L(v)[k]`: negative exponent, no scaling (00 R11). -/
noncomputable def dft (L : ℕ) (v : ℕ → ℂ) (k : ℕ) : ℂ :=
  ∑ n ∈ Finset.range L, v n * omega L ^ (-((k : ℤ) * (n : ℤ)))

/-- `IDFT_L(V)[n]`: positive exponent, no scaling (00 R11). -/
noncomputable def idft (L : ℕ) (V : ℕ → ℂ) (n : ℕ) : ℂ :=
  ∑ k ∈ Finset.range L, V k * omega L ^ ((k : ℤ) * (n : ℤ))

/-- `ref_build(L, h)[k]` over complex values (00 R12). -/
noncomputable def refBuild (L : ℕ) (h : ℕ → ℂ) (k : ℕ) : ℂ := (1 / (L : ℂ)) * dft L h k

/-- `ref_apply(N, w, p)[j]` over complex values: the back half of the inverse transform of the pointwise
product (00 R12, 40 R94, R101). -/
noncomputable def refApply (N : ℕ) (w p : ℕ → ℂ) (j : ℕ) : ℂ :=
  idft (2 * N) (fun k => dft (2 * N) w k * p k) (N + j)

/-- `sum_n |val(v[n])|`. -/
noncomputable def sumNorm (v : List Sample) : ℝ := (v.map fun c => ‖c.val‖).sum

/-- `max_k |val(v[k])|`, 0 of the empty sequence. -/
noncomputable def maxNorm (v : List Sample) : ℝ := (v.map fun c => ‖c.val‖).foldr max 0

/-- What `ACC` says of `NUM.build` on one argument (00 R13): every result sample is finite and within the bound
of its reference. -/
def Numerics.AccBuildOn (num : Numerics) (epsB : ℝ) (L : ℕ) (h : List Sample) : Prop :=
  ∀ k < L, (num.buildAt L h k).isFinite = true ∧
    ‖(num.buildAt L h k).val - refBuild L (values h) k‖ ≤ epsB * (1 / L) * sumNorm h

/-- What `ACC` says of `NUM.apply` on one pair of arguments (00 R13). -/
def Numerics.AccApplyOn (num : Numerics) (epsA : ℝ) (N : ℕ) (w p : List Sample) : Prop :=
  ∀ j < N, (num.applyAt N w p j).isFinite = true ∧
    ‖(num.applyAt N w p j).val - refApply N (values w) (values p) j‖ ≤ epsA * (2 * N) * sumNorm w * maxNorm p

/-- The accuracy property `ACC(eps_b, eps_a)` (00 R13): the two bounds on all finite arguments. Of non-finite
arguments it says nothing. Statements take the bounds on the arguments at hand instead (log 15). -/
structure Numerics.Acc (num : Numerics) (epsB epsA : ℝ) : Prop where
  build : ∀ (L : ℕ) (h : List Sample), h.length = L → allFinite h = true → num.AccBuildOn epsB L h
  apply : ∀ (N : ℕ) (w p : List Sample), w.length = 2 * N → p.length = 2 * N →
    allFinite w = true → allFinite p = true → num.AccApplyOn epsA N w p

/-- Sample `n` of the stream whose block `b` is `x b`, each of `N` samples (40 R98). -/
noncomputable def streamValue (N : ℕ) (x : ℕ → List Sample) (n : ℕ) : ℂ := values (x (n / N)) (n % N)

/-- The direct convolution of a stream with a kernel of `M` taps and zero initial state (40 R98). -/
noncomputable def directConv (M : ℕ) (h x : ℕ → ℂ) (n : ℕ) : ℂ :=
  ∑ t ∈ Finset.range M, if t ≤ n then h t * x (n - t) else 0

namespace Machine

/-- The host has written a block of input: `WORK[N..2N)` is `x`, the history as before (20 R63). -/
def withInput (x : List Sample) (s : State) : State :=
  { s with mem.work := s.mem.work.take s.blockSize ++ x }

/-- The state in which block `b` is applied: blocks `x 0` to `x (b - 1)` applied in turn, and `x b` written
(40 R98). -/
def streamBefore (num : Numerics) (x : ℕ → List Sample) (s : State) : ℕ → State
  | 0 => withInput (x 0) s
  | b + 1 => withInput (x (b + 1)) (applyWith num (streamBefore num x s b))

/-- The state after `APPLY` of blocks `x 0` to `x b` in turn, with given numerics (40 R98). -/
def streamWith (num : Numerics) (x : ℕ → List Sample) (s : State) (b : ℕ) : State :=
  applyWith num (streamBefore num x s b)

end Machine

end Sys2Proof
end

