-- ==== Sys2Proof/Safety.lean ====
section
/-! DEFINITION. What the statements rest on: the invariant of 10_state.md R42 and the clean end of a run
(60_exceptions.md R135). -/

namespace Sys2Proof.Machine

/-- The block is in operation: no fatal fault, initialisation over. -/
abbrev State.Operational (s : State) : Prop := s.status.fatal = false ∧ s.initialising = false

/-- The words `RESULT` can hold (60 R119). -/
abbrev isStatusWord (w : Word) : Prop :=
  w = 0x00000000#32 ∨ w = 0xFFFFFFFF#32 ∨ w = 0xFFFFFFFE#32 ∨ w = 0xFFFFFFFD#32 ∨ w = 0xFFFFFFFC#32

/-- What holds of a block in operation (10 R42, 60 R119, 41 R105). -/
structure State.Sound (s : State) : Prop where
  /-- `isPow2(BLKSIZE)`, so `1 <= BLKSIZE` (10 R24). -/
  block_pow2 : isPow2 s.blockSize = true
  /-- `BLKSIZE <= NMAX` (10 R24). -/
  block_le : s.blockSize ≤ Config.nMax
  /-- `FFTLEN = 2*BLKSIZE` (10 R25). -/
  fft_eq : s.fftLength = 2 * s.blockSize
  /-- `1 <= NTAPS` (10 R26). -/
  taps_pos : 1 ≤ s.regs.nTaps.toNat
  /-- `NTAPS <= BLKSIZE + 1` (10 R26). -/
  taps_le : s.regs.nTaps.toNat ≤ s.blockSize + 1
  /-- The sizes of the four memories (10 R42). -/
  sizes : s.mem.wf s.blockSize
  /-- `PROFILE` was computed from some contents of `COEF`, `NTAPS` of them in use (10 R26, R42). -/
  profile_built : ∃ c : List Sample, c.length = s.blockSize + 1 ∧
    s.mem.profile = Config.num.build s.fftLength (zeroPad s.fftLength s.regs.nTaps.toNat c)
  /-- The passband in force is one that `validPB` accepts (41 R105, 00 R5). -/
  passband : validPB Config.fs Config.minBw s.regs.pbLo s.regs.pbHi = .ok
  /-- `RESULT` holds a status code (60 R119). -/
  result : isStatusWord s.regs.result

/-- The invariant of every step: `Sound` in operation; `STATUS` is `0x1` but for `PROTO` while initialising
(70 R136); after a fatal fault no command is in flight (60 R125). -/
structure State.Inv (s : State) : Prop where
  sound : s.Operational → s.Sound
  init : s.initialising = true → s.status.busy = true ∧ s.status.first = false ∧ s.status.fatal = false
  fatal : s.status.fatal = true → s.status.busy = false ∧ s.initialising = false

/-- The engine takes the next step (60 R121). -/
abbrev EngineTurn (s : State) : Prop := blockTurn s = true ∧ engineReady s = true

/-- The host makes the next access. -/
abbrev HostTurn (s : State) : Prop := ¬(blockTurn s = true ∧ (s.initialising = true ∨ engineReady s = true))

/-- The host may access the block: neither stopped nor busy (20 R63). -/
abbrev Idle (s : State) : Prop := s.status.fatal = false ∧ s.status.busy = false

/-- A run has ended cleanly (60 R135). -/
abbrev State.CleanEnd (s : State) : Prop :=
  s.host.script = [] ∧ s.status.busy = false ∧ s.status.proto = false ∧ s.status.fatal = false

/-- A window entry exists at the aligned offset `a` (20 R48). -/
abbrev EntryAt (s : State) (w : Window) (base a : Nat) : Prop :=
  windowAt a = some (w, base) ∧ entryIndex a base < windowSize s.blockSize w

/-- The command at an opcode that takes no operand: any nonzero `IMM24` makes the word illegal (30 R74). -/
abbrev EncodedWithoutOperand (opc : BitVec 8) (i : Instr) : Prop :=
  ∀ w : Word, w.extractLsb' 0 8 = opc →
    (w.extractLsb' 8 24 = 0#24 → decode w = .ok i) ∧ (w.extractLsb' 8 24 ≠ 0#24 → ∀ j, decode w ≠ .ok j)

/-- The command at an opcode that takes `IMM24` as its operand, whatever its value (30 R74). -/
abbrev EncodedWithOperand (opc : BitVec 8) (f : Nat → Instr) : Prop :=
  ∀ w : Word, w.extractLsb' 0 8 = opc → decode w = .ok (f (w.extractLsb' 8 24).toNat)

end Sys2Proof.Machine
end

