-- ==== Sys2Proof/Certificates/Slice0/Obligations.lean ====
section
/-! DEFINITION. The statements for the provers. Each docstring says which rule of spec/ it formalises. Offsets,
words and bit positions are written as numbers here, not through the model's decoder and register map. -/

open Sys2Proof Sys2Proof.Machine

/-! ### Encoding (30_encoding.md) -/

/-- Every well-formed command is read back from its word, with its operand (30 sections 2, 3 and 7). -/
def Obligations.DecodeInvertsEncode : Prop :=
  ∀ i : Instr, i.WellFormed → decode (encode i) = .ok i

/-- Each word that decodes has one meaning: it is the encoding of what it decodes to (30 sections 2, 3, 7). -/
def Obligations.EncodeInvertsDecode : Prop :=
  ∀ (w : Word) (i : Instr), decode w = .ok i → i.WellFormed ∧ encode i = w

/-- The opcode map: a word selects a row when `w & mask = match`; `CONFIG` and `BUILD` carry `IMM24`; an
opcode from `0x07` to `0xFF` selects none (30 R71). -/
def Obligations.WordSelectsOpcodeMapRow : Prop :=
  ∀ w : Word,
    (decode w = .ok .nop ↔ w &&& 0xFFFFFFFF#32 = 0x00000000#32) ∧
    (∀ n, decode w = .ok (.config n) ↔ w &&& 0x000000FF#32 = 0x00000001#32 ∧ n = (w.extractLsb' 8 24).toNat) ∧
    (∀ m, decode w = .ok (.build m) ↔ w &&& 0x000000FF#32 = 0x00000002#32 ∧ m = (w.extractLsb' 8 24).toNat) ∧
    (decode w = .ok .restart ↔ w &&& 0xFFFFFFFF#32 = 0x00000003#32) ∧
    (decode w = .ok .apply ↔ w &&& 0xFFFFFFFF#32 = 0x00000004#32) ∧
    (decode w = .ok .setPassband ↔ w &&& 0xFFFFFFFF#32 = 0x00000005#32) ∧
    (decode w = .ok .getPassband ↔ w &&& 0xFFFFFFFF#32 = 0x00000006#32) ∧
    (7 ≤ (w.extractLsb' 0 8).toNat → ∀ i, decode w ≠ .ok i)

/-- The reference words of 30 R82 (a derived rule of the spec): a sanity statement on fixed words. -/
def Obligations.ReferenceWordsDecode : Prop :=
  decode 0x00000000#32 = .ok .nop ∧ decode 0x00000101#32 = .ok (.config 1) ∧
  decode 0x00000201#32 = .ok (.config 2) ∧ decode 0x00000301#32 = .ok (.config 3) ∧
  decode 0x00000401#32 = .ok (.config 4) ∧ decode 0x00020001#32 = .ok (.config 512) ∧
  decode 0x00000102#32 = .ok (.build 1) ∧ decode 0x00000202#32 = .ok (.build 2) ∧
  decode 0x00000302#32 = .ok (.build 3) ∧ decode 0x00000402#32 = .ok (.build 4) ∧
  decode 0x00020102#32 = .ok (.build 513) ∧ decode 0x00000003#32 = .ok .restart ∧
  decode 0x00000004#32 = .ok .apply ∧ decode 0x00000005#32 = .ok .setPassband ∧
  decode 0x00000006#32 = .ok .getPassband ∧
  decode 0x00000104#32 = .error .nonzeroImmediate ∧ decode 0x00000007#32 = .error .reservedOpcode

/-! ### The step -/

/-- When it is the engine's turn and `CMD` decodes to a command, the step is that command's execution (60 section 2). -/
def Obligations.StepRunsDecodedCommand : Prop :=
  ∀ (s : State) (i : Instr), EngineTurn s → decode s.regs.cmd = .ok i → step s = exec i s

/-- When it is the host's turn, the step is the next access of its script, in the order of the script (20 section 4). -/
def Obligations.HostAccessesInOrder : Prop :=
  ∀ (s : State) (act : HostAct) (rest : List HostAct), HostTurn s → s.host.script = act :: rest →
    step s = hostAccess act { s with host.script := rest, delay := s.delay - 1 }

/-- What each access of the host does: a read puts the value `MemRead` returns at the head of those received, a write
is `MemWrite`, `wait` reads `STATUS` and stays at the head of the script while its bit 0 is 1 and is done when it is 0,
power-on reset starts initialisation, and an offset outside the aperture is refused (20 sections 1, 3 and 5, 30 section
7; the list of received values is the model's form of the host, log 3, and the refusal is log 9). -/
def Obligations.HostAccessAnswers : Prop :=
  ∀ s : State,
    (∀ a n, a < 0x1000000 → hostAccess (.read a n) s = .next { (memRead a n s).2 with
      host := { script := s.host.script, received := (memRead a n s).1 :: s.host.received } }) ∧
    (∀ a n v, a < 0x1000000 → hostAccess (.write a n v) s = .next (memWrite a n v s)) ∧
    ((memRead 0x08 4 s).2 = s) ∧
    ((memRead 0x08 4 s).1.getLsbD 0 = true →
      hostAccess .wait s = .next { s with host.script := .wait :: s.host.script }) ∧
    ((memRead 0x08 4 s).1.getLsbD 0 = false → hostAccess .wait s = .next s) ∧
    (∃ t, hostAccess .powerOnReset s = .next t ∧ t.initialising = true ∧ t.host = s.host ∧
      t.status = { busy := true, first := false, fatal := false, proto := false }) ∧
    (∀ a n v, 0x1000000 ≤ a → hostAccess (.read a n) s = .refused .outsideAperture ∧
      hostAccess (.write a n v) s = .refused .outsideAperture)

/-- A reserved opcode, or a nonzero `IMM24` where it must be 0, is an illegal word: the engine's step changes
nothing but `RESULT` (to `-1`) and `BUSY`. `CONFIG` and `BUILD` use every `IMM24` (30 R73, R74). -/
def Obligations.IllegalWordOnlyReports : Prop :=
  ∀ s : State, EngineTurn s →
    ((7 ≤ (s.regs.cmd.extractLsb' 0 8).toNat ∨
        (s.regs.cmd.extractLsb' 8 24 ≠ 0#24 ∧
          ((s.regs.cmd.extractLsb' 0 8).toNat = 0 ∨ 3 ≤ (s.regs.cmd.extractLsb' 0 8).toNat))) →
      step s = .next { s with regs.result := 0xFFFFFFFF#32, status.busy := false }) ∧
    ((s.regs.cmd.extractLsb' 0 8).toNat = 1 →
      decode s.regs.cmd = .ok (.config (s.regs.cmd.extractLsb' 8 24).toNat)) ∧
    ((s.regs.cmd.extractLsb' 0 8).toNat = 2 →
      decode s.regs.cmd = .ok (.build (s.regs.cmd.extractLsb' 8 24).toNat))

/-- The life of a command: acceptance, execution in one step exactly when the engine has one, completion
(60 section 2). What a step is when no agent has one is the model's choice (log 10). -/
def Obligations.CommandLifeCycle : Prop :=
  (∀ (s : State) (w : Word), Idle s →
    (memWrite 0x04 4 w s).regs = { s.regs with cmd := w } ∧
    (memWrite 0x04 4 w s).status = { s.status with busy := true } ∧
    (memWrite 0x04 4 w s).mem = s.mem ∧ (memWrite 0x04 4 w s).host = s.host) ∧
  (∀ s : State, engineReady s = true ↔
    s.status.busy = true ∧ s.status.fatal = false ∧ s.initialising = false) ∧
  (∀ s : State, s.initialising = false → engineReady s = false →
    (s.host.script = [] → s.status.fatal = true → step s = .fault .stopped) ∧
    (s.host.script = [] → s.status.fatal = false → step s = .next s) ∧
    (∀ act rest, s.host.script = act :: rest →
      step s = hostAccess act { s with host.script := rest, delay := s.delay - 1 })) ∧
  (∀ s : State, EngineTurn s → ∃ t, step s = .next t ∧ t.status.busy = false ∧ t.host = s.host ∧
    t.initialising = false ∧ (t.status.fatal = false → isStatusWord t.regs.result))

/-- `wait` ends: while a command is in flight the polls of `STATUS` change nothing, and after at most the drawn
number of them the engine has its turn (70 section 4; the draw is the model's, log 4). -/
def Obligations.WaitReachesEngineTurn : Prop :=
  ∀ (s : State) (rest : List HostAct), engineReady s = true → s.host.script = .wait :: rest →
    ∃ k ≤ s.delay, ∃ u : State, Host.Core.run Sys2Proof.core k s = .next u ∧ EngineTurn u ∧
      u.regs = s.regs ∧ u.status = s.status ∧ u.mem = s.mem ∧ u.host = s.host

/-! ### The commands -/

/-- `NOP` is the word 0, changes only `RESULT` and `BUSY`, and a nonzero `IMM24` makes the word illegal (42 R117). -/
def Obligations.NopOnlyReports : Prop :=
  EncodedWithoutOperand 0x00#8 .nop ∧
  ∀ s : State, exec .nop s = .next { s with regs.result := 0x00000000#32, status.busy := false }

/-- `CONFIG n` with a power of two `n` in `[1, NMAX]` rebuilds every element and leaves `CMD`, `ARG0`, `ARG1` and
`PROTO`; with any other `n` it raises the fatal fault (42 section 1, 60 section 5). That the fatal fault keeps `FIRST`
and `PROTO` is read from 10 R23 and 60 R124 to R126 (log 6). -/
def Obligations.ConfigRebuildsOrIsFatal : Prop :=
  EncodedWithOperand 0x01#8 .config ∧
  (∀ (n : Nat) (s : State), (∃ k, n = 2 ^ k) → n ≤ Config.nMax →
    ∃ t, exec (.config n) s = .next t ∧
      t.regs.blkSize.toNat = n ∧ t.regs.fftLen.toNat = 2 * n ∧ t.regs.nTaps.toNat = n + 1 ∧
      t.regs.pbLo = Config.defLo ∧ t.regs.pbHi = Config.defHi ∧
      t.regs.res0 = 0#32 ∧ t.regs.res1 = 0#32 ∧ t.regs.result = 0#32 ∧
      t.regs.cmd = s.regs.cmd ∧ t.regs.arg0 = s.regs.arg0 ∧ t.regs.arg1 = s.regs.arg1 ∧
      t.status = { busy := false, first := true, fatal := s.status.fatal, proto := s.status.proto } ∧
      t.mem.wf n ∧
      (∀ k ≤ n, t.mem.coef[k]? = some (Config.designAt Config.defLo Config.defHi Config.fs (n + 1) k)) ∧
      (∀ k < 2 * n, t.mem.profile[k]? =
        some (Config.num.buildAt (2 * n)
          (t.mem.coef ++ List.replicate (n - 1) CZERO) k)) ∧
      (∀ k < 2 * n, t.mem.work[k]? = some CZERO) ∧ (∀ j < n, t.mem.out[j]? = some CZERO) ∧
      t.initialising = s.initialising ∧ t.host = s.host) ∧
  (∀ (n : Nat) (s : State), ¬((∃ k, n = 2 ^ k) ∧ n ≤ Config.nMax) →
    ∃ t, exec (.config n) s = .next t ∧
      t.status = { busy := false, first := s.status.first, fatal := true, proto := s.status.proto } ∧
      t.initialising = s.initialising ∧ t.host = s.host)

/-- `BUILD m` with `1 <= m <= N + 1` computes `PROFILE` from `COEF[0..m)`, entries from `m` on counting as
`CZERO`, and sets `NTAPS`; it writes nothing else. Any other `m` changes only `RESULT` (to `-4`) and `BUSY`
(40 section 2). -/
def Obligations.BuildComputesProfile : Prop :=
  EncodedWithOperand 0x02#8 .build ∧
  ∀ (m : Nat) (s : State), s.Sound →
    (1 ≤ m → m ≤ s.regs.blkSize.toNat + 1 →
      ∃ t, exec (.build m) s = .next t ∧
        t.regs = { s.regs with nTaps := t.regs.nTaps, result := 0#32 } ∧ t.regs.nTaps.toNat = m ∧
        t.status = { s.status with busy := false } ∧
        t.mem = { s.mem with profile := t.mem.profile } ∧
        t.mem.profile.length = 2 * s.regs.blkSize.toNat ∧
        (∃ hpad : List Sample, hpad.length = 2 * s.regs.blkSize.toNat ∧
          (∀ n < m, hpad[n]? = s.mem.coef[n]?) ∧
          (∀ n < 2 * s.regs.blkSize.toNat, m ≤ n → hpad[n]? = some CZERO) ∧
          ∀ k < 2 * s.regs.blkSize.toNat, t.mem.profile[k]? =
            some (Config.num.buildAt (2 * s.regs.blkSize.toNat) hpad k)) ∧
        t.initialising = s.initialising ∧ t.host = s.host) ∧
    (m = 0 ∨ s.regs.blkSize.toNat + 1 < m →
      exec (.build m) s = .next { s with regs.result := 0xFFFFFFFC#32, status.busy := false })

/-- `BUILD` leaves the history and `FIRST` alone, so the first `APPLY` after it filters the saved history and the
new input with the new profile (40 R90). -/
def Obligations.BuildKeepsHistory : Prop :=
  ∀ (m : Nat) (s t u : State), s.Sound → exec (.build m) s = .next t → exec .apply t = .next u →
    t.mem.work = s.mem.work ∧ t.status.first = s.status.first ∧
    ∀ j < s.regs.blkSize.toNat, u.mem.out[j]? =
      some (Config.num.applyAt s.regs.blkSize.toNat (firstCallWork s) t.mem.profile j)

/-- `RESTART` zeroes the history and nothing else, twice is once, and what `APPLY` then gives does not depend
on `FIRST` (40 R91). -/
def Obligations.RestartZeroesHistory : Prop :=
  EncodedWithoutOperand 0x03#8 .restart ∧
  ∀ s : State, ∃ t, exec .restart s = .next t ∧
    t.regs = { s.regs with result := 0#32 } ∧ t.status = { s.status with busy := false } ∧
    t.mem = { s.mem with work := t.mem.work } ∧
    (∀ k < s.regs.blkSize.toNat, t.mem.work[k]? = some CZERO) ∧
    (∀ k, s.regs.blkSize.toNat ≤ k → t.mem.work[k]? = s.mem.work[k]?) ∧
    t.initialising = s.initialising ∧ t.host = s.host ∧
    exec .restart t = .next t ∧
    ∀ (b : Bool) (u v : State), exec .apply t = .next u → exec .apply { t with status.first := b } = .next v →
      u.mem = v.mem

/-- `APPLY`: the history is zeroed on the first call, the output block is `NUM.apply` of the work buffer and the
profile, and the input half is then copied onto the history half, bit for bit; nothing else but `FIRST`,
`RESULT` and `BUSY` is written (40 R93, R95). -/
def Obligations.ApplyFiltersAndSaves : Prop :=
  EncodedWithoutOperand 0x04#8 .apply ∧
  ∀ s : State, s.Sound → ∃ t, exec .apply s = .next t ∧
    t.regs = { s.regs with result := 0#32 } ∧
    t.status = { s.status with busy := false, first := false } ∧
    t.mem = { s.mem with work := t.mem.work, out := t.mem.out } ∧
    (∃ w : List Sample, w.length = 2 * s.regs.blkSize.toNat ∧
      (∀ k < s.regs.blkSize.toNat, w[k]? = if s.status.first then some CZERO else s.mem.work[k]?) ∧
      (∀ k, s.regs.blkSize.toNat ≤ k → w[k]? = s.mem.work[k]?) ∧
      t.mem.out.length = s.regs.blkSize.toNat ∧
      ∀ j < s.regs.blkSize.toNat, t.mem.out[j]? =
        some (Config.num.applyAt s.regs.blkSize.toNat w s.mem.profile j)) ∧
    (∀ k < s.regs.blkSize.toNat, t.mem.work[k]? = s.mem.work[s.regs.blkSize.toNat + k]?) ∧
    (∀ k, s.regs.blkSize.toNat ≤ k → t.mem.work[k]? = s.mem.work[k]?) ∧
    t.initialising = s.initialising ∧ t.host = s.host

/-- What `APPLY` gives depends on `BLKSIZE`, `FIRST`, `WORK` and `PROFILE` alone: not on `COEF`, `NTAPS` or any
other element (70 section 3, the coefficient hazard). -/
def Obligations.ApplyReadsOnlyItsOperands : Prop :=
  ∀ s s' t t' : State, s.regs.blkSize = s'.regs.blkSize → s.status.first = s'.status.first →
    s.mem.work = s'.mem.work → s.mem.profile = s'.mem.profile →
    exec .apply s = .next t → exec .apply s' = .next t' →
    t.mem.out = t'.mem.out ∧ t.mem.work = t'.mem.work

/-- `SET_PASSBAND`: an accepted passband is designed into all of `COEF`, the profile is rebuilt from all `N + 1`
coefficients and the edges are recorded bit for bit; a rejected one changes only `RESULT` and `BUSY` (41 R106,
R107). `validPB` is 41 R105, which `PassbandValidationIsExact` states. -/
def Obligations.SetPassbandDesignsOrRejects : Prop :=
  EncodedWithoutOperand 0x05#8 .setPassband ∧
  ∀ s : State, s.Sound →
    (validPB Config.fs Config.minBw s.regs.arg0 s.regs.arg1 = .ok →
      ∃ t, exec .setPassband s = .next t ∧
        t.regs = { s.regs with nTaps := t.regs.nTaps, pbLo := s.regs.arg0, pbHi := s.regs.arg1, result := 0#32 } ∧
        t.regs.nTaps.toNat = s.regs.blkSize.toNat + 1 ∧
        t.status = { s.status with busy := false } ∧
        t.mem = { s.mem with coef := t.mem.coef, profile := t.mem.profile } ∧
        t.mem.wf s.regs.blkSize.toNat ∧
        (∀ k ≤ s.regs.blkSize.toNat, t.mem.coef[k]? =
          some (Config.designAt s.regs.arg0 s.regs.arg1 Config.fs (s.regs.blkSize.toNat + 1) k)) ∧
        (∀ k < 2 * s.regs.blkSize.toNat, t.mem.profile[k]? =
          some (Config.num.buildAt (2 * s.regs.blkSize.toNat)
            (t.mem.coef ++ List.replicate (s.regs.blkSize.toNat - 1) CZERO) k)) ∧
        t.initialising = s.initialising ∧ t.host = s.host) ∧
    (validPB Config.fs Config.minBw s.regs.arg0 s.regs.arg1 = .errRange →
      exec .setPassband s = .next { s with regs.result := 0xFFFFFFFE#32, status.busy := false }) ∧
    (validPB Config.fs Config.minBw s.regs.arg0 s.regs.arg1 = .errClose →
      exec .setPassband s = .next { s with regs.result := 0xFFFFFFFD#32, status.busy := false }) ∧
    (validPB Config.fs Config.minBw s.regs.arg0 s.regs.arg1 = .ok ∨
      validPB Config.fs Config.minBw s.regs.arg0 s.regs.arg1 = .errRange ∨
      validPB Config.fs Config.minBw s.regs.arg0 s.regs.arg1 = .errClose)

/-- `f32` of a finite word is its binary32 value: `(-1)^sign * 2^(e-127) * (1 + fraction/2^23)` for an exponent field `e`
from 1 to 254, and `(-1)^sign * fraction * 2^-149` for 0; the words with `e = 255` are those not finite. Binary32 is the
spec's own reading (00 section 6, 93 G1; log 11). -/
def Obligations.FloatValueIsBinary32 : Prop :=
  ∀ w : Word,
    (isFinite w = false ↔ (w.extractLsb' 23 8).toNat = 255) ∧
    (1 ≤ (w.extractLsb' 23 8).toNat → (w.extractLsb' 23 8).toNat ≤ 254 →
      f32 w = (if w.getLsbD 31 then -1 else 1) * 2 ^ (((w.extractLsb' 23 8).toNat : ℤ) - 127) *
        (1 + ((w.extractLsb' 0 23).toNat : ℝ) / 2 ^ 23)) ∧
    ((w.extractLsb' 23 8).toNat = 0 →
      f32 w = (if w.getLsbD 31 then -1 else 1) * ((w.extractLsb' 0 23).toNat : ℝ) * 2 ^ (-149 : ℤ))

/-- `validPB` compares the real values exactly: a non-finite edge, then an edge outside `[-FS/2, FS/2]`, then the
width (41 R105). The sample rate and the threshold are any finite words. `FloatValueIsBinary32` says what `f32` is. -/
def Obligations.PassbandValidationIsExact : Prop :=
  ∀ fs minBw lo hi : Word, isFinite fs = true → isFinite minBw = true →
    (isFinite lo = false ∨ isFinite hi = false → validPB fs minBw lo hi = .errRange) ∧
    (isFinite lo = true → isFinite hi = true →
      (f32 fs / 2 < |f32 lo| ∨ f32 fs / 2 < |f32 hi| → validPB fs minBw lo hi = .errRange) ∧
      (|f32 lo| ≤ f32 fs / 2 → |f32 hi| ≤ f32 fs / 2 →
        (f32 hi - f32 lo < f32 minBw → validPB fs minBw lo hi = .errClose) ∧
        (f32 minBw ≤ f32 hi - f32 lo → validPB fs minBw lo hi = .ok)))

/-- `GET_PASSBAND` returns the edges in force: the defaults after `CONFIG` or reset, the last accepted ones after a rejected
`SET_PASSBAND`, the last set ones after `BUILD`, which does not change them (41 R109, R110). -/
def Obligations.GetPassbandReturnsEdgesInForce : Prop :=
  EncodedWithoutOperand 0x06#8 .getPassband ∧
  (∀ s : State, exec .getPassband s =
    .next { s with regs.res0 := s.regs.pbLo, regs.res1 := s.regs.pbHi, regs.result := 0#32
                   status.busy := false }) ∧
  (∀ (n : Nat) (s t u : State), (∃ k, n = 2 ^ k) → n ≤ Config.nMax → exec (.config n) s = .next t →
    exec .getPassband t = .next u → u.regs.res0 = Config.defLo ∧ u.regs.res1 = Config.defHi) ∧
  (∀ s u : State, exec .getPassband (finishReset s) = .next u →
    u.regs.res0 = Config.defLo ∧ u.regs.res1 = Config.defHi) ∧
  (∀ s t u : State, validPB Config.fs Config.minBw s.regs.arg0 s.regs.arg1 ≠ .ok →
    exec .setPassband s = .next t → exec .getPassband t = .next u →
    u.regs.res0 = s.regs.pbLo ∧ u.regs.res1 = s.regs.pbHi) ∧
  (∀ (m : Nat) (s t u : State), exec (.build m) s = .next t → exec .getPassband t = .next u →
    t.regs.pbLo = s.regs.pbLo ∧ t.regs.pbHi = s.regs.pbHi ∧
    u.regs.res0 = s.regs.pbLo ∧ u.regs.res1 = s.regs.pbHi) ∧
  (∀ s t u : State, validPB Config.fs Config.minBw s.regs.arg0 s.regs.arg1 = .ok →
    exec .setPassband s = .next t → exec .getPassband t = .next u →
    u.regs.res0 = s.regs.arg0 ∧ u.regs.res1 = s.regs.arg1)

/-! ### Frames: every byte of the windows outside the stored ones reads as before -/

/-- `NOP` and `GET_PASSBAND` store nothing: every byte of the aperture's windows reads as before, and the registers
other than `RESULT` (and `RES0`, `RES1` for `GET_PASSBAND`) are unchanged (42 section 2, 41 section 3). -/
def Obligations.FrameOfCommandsThatStoreNothing : Prop :=
  ∀ (i : Instr) (s t : State), i = .nop ∨ i = .getPassband → exec i s = .next t →
    (∀ a, 0x100 ≤ a → t.byteAt a = s.byteAt a) ∧
    t.status = { s.status with busy := false } ∧
    (t.regs = { s.regs with result := t.regs.result } ∨
      (i = .getPassband ∧
        t.regs = { s.regs with result := t.regs.result, res0 := t.regs.res0, res1 := t.regs.res1 })) ∧
    t.initialising = s.initialising ∧ t.host = s.host

/-- `BUILD` stores to the `2N` entries of the PROFILE window alone, and only when it is accepted (40 section 2). -/
def Obligations.FrameOfBuild : Prop :=
  ∀ (m : Nat) (s t : State), s.Sound → exec (.build m) s = .next t →
    (∀ a, 0x100 ≤ a → ¬(1 ≤ m ∧ m ≤ s.blockSize + 1 ∧
        0x200000 ≤ a ∧ a < 0x200000 + 8 * (2 * s.blockSize)) → t.byteAt a = s.byteAt a) ∧
    t.status = { s.status with busy := false } ∧
    t.regs = { s.regs with result := t.regs.result, nTaps := t.regs.nTaps }

/-- `RESTART` stores to the `N` history entries of the WORK window alone (40 section 3). -/
def Obligations.FrameOfRestart : Prop :=
  ∀ s t : State, exec .restart s = .next t →
    (∀ a, 0x100 ≤ a → ¬(0x300000 ≤ a ∧ a < 0x300000 + 8 * s.blockSize) → t.byteAt a = s.byteAt a) ∧
    t.status = { s.status with busy := false } ∧ t.regs = { s.regs with result := t.regs.result }

/-- `APPLY` stores to the `N` entries of the OUT window and the `N` history entries of the WORK window alone
(40 section 4). -/
def Obligations.FrameOfApply : Prop :=
  ∀ s t : State, exec .apply s = .next t →
    (∀ a, 0x100 ≤ a → ¬(0x300000 ≤ a ∧ a < 0x300000 + 8 * s.blockSize) →
      ¬(0x400000 ≤ a ∧ a < 0x400000 + 8 * s.blockSize) → t.byteAt a = s.byteAt a) ∧
    t.status = { s.status with busy := false, first := false } ∧
    t.regs = { s.regs with result := t.regs.result }

/-- `SET_PASSBAND` stores to the COEF and PROFILE windows alone, and only when it is accepted: `WORK` and `FIRST`
stay, so the next `APPLY` filters the saved history (41 section 2). -/
def Obligations.FrameOfSetPassband : Prop :=
  ∀ s t : State, s.Sound → exec .setPassband s = .next t →
    (∀ a, 0x100 ≤ a → ¬(validPB Config.fs Config.minBw s.regs.arg0 s.regs.arg1 = .ok ∧
        ((0x100000 ≤ a ∧ a < 0x100000 + 8 * (s.blockSize + 1)) ∨
          (0x200000 ≤ a ∧ a < 0x200000 + 8 * (2 * s.blockSize)))) → t.byteAt a = s.byteAt a) ∧
    t.status = { s.status with busy := false } ∧
    t.regs = { s.regs with
      result := t.regs.result, nTaps := t.regs.nTaps, pbLo := t.regs.pbLo, pbHi := t.regs.pbHi }

/-! ### Whole-machine rules -/

/-- A command that finishes with a negative code changes no state other than `RESULT` and `BUSY` (60 R120). -/
def Obligations.RejectionIsAtomic : Prop :=
  ∀ s t : State, EngineTurn s → step s = .next t → t.status.fatal = false → t.regs.result.toInt < 0 →
    t = { s with regs.result := t.regs.result, status.busy := false }

/-- `RESULT` after a command is one of the five codes, each with its own cause (60 R119, 41 R105). -/
def Obligations.ResultCodeHasItsCause : Prop :=
  ∀ s t : State, EngineTurn s → step s = .next t → t.status.fatal = false →
    isStatusWord t.regs.result ∧
    (t.regs.result = 0xFFFFFFFF#32 ↔ ∀ i, decode s.regs.cmd ≠ .ok i) ∧
    (t.regs.result = 0xFFFFFFFE#32 ↔ decode s.regs.cmd = .ok .setPassband ∧
      (isFinite s.regs.arg0 = false ∨ isFinite s.regs.arg1 = false ∨
        f32 Config.fs / 2 < |f32 s.regs.arg0| ∨ f32 Config.fs / 2 < |f32 s.regs.arg1|)) ∧
    (t.regs.result = 0xFFFFFFFD#32 ↔ decode s.regs.cmd = .ok .setPassband ∧
      isFinite s.regs.arg0 = true ∧ isFinite s.regs.arg1 = true ∧
      |f32 s.regs.arg0| ≤ f32 Config.fs / 2 ∧ |f32 s.regs.arg1| ≤ f32 Config.fs / 2 ∧
      f32 s.regs.arg1 - f32 s.regs.arg0 < f32 Config.minBw) ∧
    (t.regs.result = 0xFFFFFFFC#32 ↔ ∃ m, decode s.regs.cmd = .ok (.build m) ∧
      (m = 0 ∨ s.regs.blkSize.toNat + 1 < m))

/-- The only way into the fatal stop is the engine's step of a `CONFIG` with an invalid block size (60 section 5). -/
def Obligations.OnlyInvalidConfigIsFatal : Prop :=
  ∀ s t : State, s.status.fatal = false → step s = .next t →
    (t.status.fatal = true ↔ EngineTurn s ∧ ∃ n, decode s.regs.cmd = .ok (.config n) ∧
      ¬((∃ k, n = 2 ^ k) ∧ n ≤ Config.nMax))

/-- After a fatal fault: writes are ignored, `ID` and `STATUS` are served, no read records anything, the engine has
no step, and only power-on reset leads out (60 section 5). -/
def Obligations.FatalBlockOnlyResets : Prop :=
  ∀ s : State, s.status.fatal = true → s.initialising = false →
    (∀ a n v, memWrite a n v s = s) ∧
    memRead 0x00 4 s = (0x4F4C5331#32, s) ∧ memRead 0x08 4 s = (s.status.word, s) ∧
    (∀ a n, (memRead a n s).2.regs = s.regs ∧ (memRead a n s).2.status = s.status ∧
      (memRead a n s).2.mem = s.mem) ∧
    engineReady s = false ∧
    ∀ t, step s = .next t →
      (t.status = s.status ∧ t.regs = s.regs ∧ t.mem = s.mem ∧ t.initialising = false) ∨
      (∃ rest, s.host.script = .powerOnReset :: rest ∧ t.initialising = true)

/-- `PROTO` is sticky: only power-on reset clears it, a second fault changes nothing more (a faulting read draws its
value, log 5), and the engine runs on as with `PROTO = 0` (60 R124). -/
def Obligations.ProtoIsSticky : Prop :=
  (∀ s t : State, s.status.proto = true → step s = .next t →
    t.status.proto = true ∨ ∃ rest, HostTurn s ∧ s.host.script = .powerOnReset :: rest) ∧
  (∀ s : State, s.status.proto = true → raiseProto s = s ∧
    (∀ a n, (memRead a n s).2 = { s with draws := (memRead a n s).2.draws }) ∧
    (∀ a n v, s.status.fatal = false → s.status.busy = true ∨ n ≠ 4 ∨ a % 4 ≠ 0 → memWrite a n v s = s)) ∧
  (∀ (s : State) (b : Bool), engineReady { s with status.proto := b } = engineReady s) ∧
  (∀ (i : Instr) (s t : State) (b : Bool), exec i s = .next t →
    exec i { s with status.proto := b } = .next { t with status.proto := b })

/-- `FIRST` is set by a successful `CONFIG` and by reset, cleared by `APPLY`, and changed by nothing else; when it is 1
`APPLY` works on a history of `CZERO` (10 R23). -/
def Obligations.FirstFlagRule : Prop :=
  (∀ (i : Instr) (s t : State), exec i s = .next t → t.status.fatal = false →
    (t.status.first = true ↔ (∃ n, i = .config n) ∨ (s.status.first = true ∧ i ≠ .apply))) ∧
  (∀ s t : State, s.Sound → s.status.first = true → exec .apply s = .next t →
    ∃ w : List Sample, (∀ k < s.regs.blkSize.toNat, w[k]? = some CZERO) ∧
      (∀ k, s.regs.blkSize.toNat ≤ k → w[k]? = s.mem.work[k]?) ∧
      ∀ j < s.regs.blkSize.toNat, t.mem.out[j]? =
        some (Config.num.applyAt s.regs.blkSize.toNat w s.mem.profile j)) ∧
  (∀ s t : State, blockTurn s = true → s.initialising = true → step s = .next t → t.status.first = true) ∧
  (∀ s t : State, s.initialising = false → t.initialising = false → step s = .next t →
    t.status.first ≠ s.status.first →
    EngineTurn s ∧ (decode s.regs.cmd = .ok .apply ∨ ∃ n, decode s.regs.cmd = .ok (.config n)))

/-- Which step may change which register (other than `STATUS`) or memory of a block in operation: the sizes only
`CONFIG`; `NTAPS` and `PROFILE` only the commands that build a profile; the passband only `SET_PASSBAND` and `CONFIG`;
the results only their commands; `CMD`, `ARG0` and `ARG1` only a host write; COEF, WORK and OUT only their commands and
host writes to their windows (10 sections 2 and 3). -/
def Obligations.ElementsChangeOnlyByTheirWriters : Prop :=
  ∀ s t : State, s.Operational → t.Operational → step s = .next t →
    (t.regs.blkSize ≠ s.regs.blkSize ∨ t.regs.fftLen ≠ s.regs.fftLen →
      EngineTurn s ∧ ∃ n, decode s.regs.cmd = .ok (.config n)) ∧
    (t.regs.nTaps ≠ s.regs.nTaps ∨ t.mem.profile ≠ s.mem.profile →
      EngineTurn s ∧ ((∃ m, decode s.regs.cmd = .ok (.build m)) ∨ decode s.regs.cmd = .ok .setPassband ∨
        ∃ n, decode s.regs.cmd = .ok (.config n))) ∧
    (t.regs.pbLo ≠ s.regs.pbLo ∨ t.regs.pbHi ≠ s.regs.pbHi →
      EngineTurn s ∧ (decode s.regs.cmd = .ok .setPassband ∨ ∃ n, decode s.regs.cmd = .ok (.config n))) ∧
    (t.regs.res0 ≠ s.regs.res0 ∨ t.regs.res1 ≠ s.regs.res1 →
      EngineTurn s ∧ (decode s.regs.cmd = .ok .getPassband ∨ ∃ n, decode s.regs.cmd = .ok (.config n))) ∧
    (t.regs.result ≠ s.regs.result → EngineTurn s) ∧
    (t.regs.cmd ≠ s.regs.cmd → ∃ v rest, s.host.script = .write 0x04 4 v :: rest ∧ t.regs.cmd = v) ∧
    (t.regs.arg0 ≠ s.regs.arg0 → ∃ v rest, s.host.script = .write 0x10 4 v :: rest ∧ t.regs.arg0 = v) ∧
    (t.regs.arg1 ≠ s.regs.arg1 → ∃ v rest, s.host.script = .write 0x14 4 v :: rest ∧ t.regs.arg1 = v) ∧
    (t.mem.coef ≠ s.mem.coef →
      (EngineTurn s ∧ (decode s.regs.cmd = .ok .setPassband ∨ ∃ n, decode s.regs.cmd = .ok (.config n))) ∨
      (HostTurn s ∧ ∃ a v rest, s.host.script = .write a 4 v :: rest ∧ 0x100000 ≤ a ∧ a < 0x200000)) ∧
    (t.mem.work ≠ s.mem.work →
      (EngineTurn s ∧ (decode s.regs.cmd = .ok .apply ∨ decode s.regs.cmd = .ok .restart ∨
        ∃ n, decode s.regs.cmd = .ok (.config n))) ∨
      (HostTurn s ∧ ∃ a v rest, s.host.script = .write a 4 v :: rest ∧ 0x300000 ≤ a ∧ a < 0x400000)) ∧
    (t.mem.out ≠ s.mem.out →
      (EngineTurn s ∧ (decode s.regs.cmd = .ok .apply ∨ ∃ n, decode s.regs.cmd = .ok (.config n))) ∨
      (HostTurn s ∧ ∃ a v rest, s.host.script = .write a 4 v :: rest ∧ 0x400000 ≤ a ∧ a < 0x500000))

/-- Every step keeps the invariant of 10 R42 (a derived rule of the spec), with the passband's validity, the status
codes, and what `STATUS` is while initialising and after a fatal fault. -/
def Obligations.EveryStepKeepsInv : Prop :=
  ∀ s t : State, s.Inv → step s = .next t → t.Inv

/-- The invariant holds after power-on reset (10 sections 5 and 6). -/
def Obligations.InvAfterReset : Prop := State.reset.Inv

/-! ### Host accesses (20_memory.md) -/

/-- While `BUSY = 1` the host may only read `STATUS` and `ID`; anything else is a protocol fault that leaves all else,
the in-flight command with it, unchanged (20 R58). -/
def Obligations.BusyAccessIsFault : Prop :=
  ∀ s : State, s.status.fatal = false → s.status.busy = true →
    memRead 0x00 4 s = (0x4F4C5331#32, s) ∧ memRead 0x08 4 s = (s.statusWord, s) ∧
    (∀ a n v, memWrite a n v s = { s with status.proto := true }) ∧
    (∀ a n, ¬(n = 4 ∧ (a = 0x00 ∨ a = 0x08)) → ∃ v, memRead a n s =
      (v, { s with status.proto := true, draws := s.draws + 1 }))

/-- An access that is not 32 bits wide or not aligned is a protocol fault: a write changes nothing but `PROTO`, a
read gives some value and changes nothing else (20 R51, R54; `draws` is the model's count of free values). -/
def Obligations.MisalignedOrWrongWidthIsFault : Prop :=
  ∀ (s : State) (a n : Nat) (v : Word), s.status.fatal = false → n ≠ 4 ∨ a % 4 ≠ 0 →
    memWrite a n v s = { s with status.proto := true } ∧
    ∃ u, memRead a n s = (u, { s with status.proto := true, draws := s.draws + 1 })

/-- A write to a read-only register or to any PROFILE offset is a protocol fault and changes nothing but `PROTO`
(20 R57). -/
def Obligations.ReadOnlyWriteIsFault : Prop :=
  ∀ (s : State) (a : Nat) (v : Word), Idle s → a % 4 = 0 →
    a = 0x00 ∨ a = 0x08 ∨ a = 0x0C ∨ a = 0x18 ∨ a = 0x1C ∨ a = 0x20 ∨ a = 0x24 ∨ a = 0x28 ∨ a = 0x2C ∨ a = 0x30 ∨
      a = 0x34 ∨ (0x200000 ≤ a ∧ a < 0x300000) →
    memWrite a 4 v s = { s with status.proto := true } ∧
    (a ≠ 0x08 → (memWrite a 4 v s).wordAt a = s.wordAt a)

/-- An access to a word offset of the REG region that names no register, or to an unmapped region, is a protocol
fault (20 R66). -/
def Obligations.UnmappedAccessIsFault : Prop :=
  ∀ (s : State) (a : Nat) (v : Word), Idle s → a % 4 = 0 →
    (0x38 ≤ a ∧ a < 0x100) ∨ (0x100 ≤ a ∧ a < 0x100000) ∨ (0x500000 ≤ a ∧ a < 0x1000000) →
    memWrite a 4 v s = { s with status.proto := true } ∧
    ∃ u, memRead a 4 s = (u, { s with status.proto := true, draws := s.draws + 1 })

/-- The windows' current sizes are `N + 1`, `2N`, `2N` and `N` entries: an access beyond is a protocol fault, a read
within is none (20 R48). -/
def Obligations.AccessBeyondCurrentSizeIsFault : Prop :=
  ∀ (s : State) (base size k half : Nat) (v : Word), Idle s →
    (base = 0x100000 ∧ size = s.regs.blkSize.toNat + 1) ∨ (base = 0x200000 ∧ size = 2 * s.regs.blkSize.toNat) ∨
      (base = 0x300000 ∧ size = 2 * s.regs.blkSize.toNat) ∨ (base = 0x400000 ∧ size = s.regs.blkSize.toNat) →
    half = 0 ∨ half = 4 → k < 2 ^ 17 →
    (size ≤ k →
      memWrite (base + 8 * k + half) 4 v s = { s with status.proto := true } ∧
      ∃ u, memRead (base + 8 * k + half) 4 s = (u, { s with status.proto := true, draws := s.draws + 1 })) ∧
    (k < size → (memRead (base + 8 * k + half) 4 s).2 = s)

/-- Entry `k` of each memory is at `B + 8k` (real half) and `B + 8k + 4` (imaginary half), and every current entry
lies in its window's `2^20` bytes (20 R47). -/
def Obligations.WindowLayout : Prop :=
  ∀ s : State, s.Sound → ∀ (base : Nat) (m : List Sample),
    (base = 0x100000 ∧ m = s.mem.coef) ∨ (base = 0x200000 ∧ m = s.mem.profile) ∨
      (base = 0x300000 ∧ m = s.mem.work) ∨ (base = 0x400000 ∧ m = s.mem.out) →
    ∀ (k : Nat) (c : Sample), m[k]? = some c →
      s.wordAt (base + 8 * k) = some c.re ∧ s.wordAt (base + 8 * k + 4) = some c.im ∧
      base + 8 * k + 8 ≤ base + 2 ^ 20

/-- The aperture is little-endian: byte `i` of the word at an aligned offset is its bits `[8i+7:8i]`, so the sign of a
binary32 value is bit 7 of the last byte (20 R49). -/
def Obligations.ApertureIsLittleEndian : Prop :=
  ∀ (s : State) (a i : Nat) (w : Word), a % 4 = 0 → i < 4 → s.wordAt a = some w →
    s.byteAt (a + i) = some (w.extractLsb' (8 * i) 8)

/-- A host write to an entry of COEF, WORK or OUT reads back, and no other word of the aperture and no flag changes
(20 section 3). -/
def Obligations.WindowWriteReadsBack : Prop :=
  ∀ (s : State) (w : Window) (base a : Nat) (v : Word), s.Sound → Idle s → w ≠ .profile → a % 4 = 0 →
    windowAt a = some (w, base) → entryIndex a base < windowSize s.blockSize w →
    memRead a 4 (memWrite a 4 v s) = (v, memWrite a 4 v s) ∧
    (memWrite a 4 v s).regs = s.regs ∧ (memWrite a 4 v s).status = s.status ∧
    ∀ b, b % 4 = 0 → b ≠ a → (memWrite a 4 v s).wordAt b = s.wordAt b

/-- The register map of an idle block in operation: what each offset reads as, and that `ARG0` and `ARG1` read back
what is written (10 section 2). -/
def Obligations.RegisterMapReads : Prop :=
  ∀ s : State, Idle s → s.initialising = false →
    memRead 0x00 4 s = (0x4F4C5331#32, s) ∧ memRead 0x04 4 s = (s.regs.cmd, s) ∧
    memRead 0x08 4 s = (s.status.word, s) ∧ memRead 0x0C 4 s = (s.regs.result, s) ∧
    memRead 0x10 4 s = (s.regs.arg0, s) ∧ memRead 0x14 4 s = (s.regs.arg1, s) ∧
    memRead 0x18 4 s = (s.regs.res0, s) ∧ memRead 0x1C 4 s = (s.regs.res1, s) ∧
    memRead 0x20 4 s = (s.regs.blkSize, s) ∧ memRead 0x24 4 s = (s.regs.fftLen, s) ∧
    memRead 0x28 4 s = (s.regs.nTaps, s) ∧
    ((memRead 0x2C 4 s).1.toNat = Config.nMax ∧ (memRead 0x2C 4 s).2 = s) ∧
    memRead 0x30 4 s = (Config.fs, s) ∧ memRead 0x34 4 s = (Config.minBw, s) ∧
    (∀ v, memWrite 0x10 4 v s = { s with regs.arg0 := v } ∧ memWrite 0x14 4 v s = { s with regs.arg1 := v })

/-- The fields of `STATUS` at their bits, reserved bits reading 0 (10 section 2); `0x00000001` during initialisation,
whatever accesses were made in it (70 section 1). -/
def Obligations.StatusWordFields : Prop :=
  (∀ f : Status, f.word.getLsbD 0 = f.busy ∧ f.word.getLsbD 1 = f.first ∧ f.word.getLsbD 2 = f.fatal ∧
    f.word.getLsbD 3 = f.proto ∧ ∀ i, 4 ≤ i → f.word.getLsbD i = false) ∧
  (∀ s : State, s.initialising = false → s.statusWord = s.status.word) ∧
  (∀ s : State, s.initialising = true → s.statusWord = 0x00000001#32)

/-! ### Reset (70_reset_and_hazards.md) -/

/-- When an initialisation without a protocol fault ends, every element holds the value of the reset table;
`State.reset` is that table too (10 R43). -/
def Obligations.ResetTable : Prop :=
  ∀ t : State,
    t = State.reset ∨ (∃ s, blockTurn s = true ∧ s.initialising = true ∧ s.status.proto = false ∧ step s = .next t) →
    t.regs.cmd = 0#32 ∧ t.status.word = 0x00000002#32 ∧ t.statusWord = 0x00000002#32 ∧ t.regs.result = 0#32 ∧
    t.regs.arg0 = 0#32 ∧ t.regs.arg1 = 0#32 ∧ t.regs.res0 = 0#32 ∧ t.regs.res1 = 0#32 ∧
    t.regs.blkSize.toNat = Config.nReset ∧ t.regs.fftLen.toNat = 2 * Config.nReset ∧
    t.regs.nTaps.toNat = Config.nReset + 1 ∧ t.regs.pbLo = Config.defLo ∧ t.regs.pbHi = Config.defHi ∧
    memRead 0x00 4 t = (0x4F4C5331#32, t) ∧ (memRead 0x2C 4 t).1.toNat = Config.nMax ∧
    memRead 0x30 4 t = (Config.fs, t) ∧ memRead 0x34 4 t = (Config.minBw, t) ∧
    t.mem.wf Config.nReset ∧
    (∀ k ≤ Config.nReset, t.mem.coef[k]? =
      some (Config.designAt Config.defLo Config.defHi Config.fs (Config.nReset + 1) k)) ∧
    (∀ k < 2 * Config.nReset, t.mem.profile[k]? =
      some (Config.num.buildAt (2 * Config.nReset)
        (t.mem.coef ++ List.replicate (Config.nReset - 1) CZERO) k)) ∧
    (∀ k < 2 * Config.nReset, t.mem.work[k]? = some CZERO) ∧
    (∀ j < Config.nReset, t.mem.out[j]? = some CZERO) ∧ t.initialising = false

/-- Reset asserted in any state, a stopped or busy one too, abandons the command in flight: `STATUS` reads
`0x00000001` all through initialisation, the engine has no step, and the host's only served accesses are reads of
`STATUS` and `ID` until it ends, when a fault made meanwhile is in `PROTO` (70 section 1). -/
def Obligations.PowerOnResetFromAnyState : Prop :=
  (∀ (s : State) (rest : List HostAct), HostTurn s → s.host.script = .powerOnReset :: rest →
    ∃ t, step s = .next t ∧ t.initialising = true ∧ t.statusWord = 0x00000001#32 ∧
      t.status.fatal = false ∧ t.host.script = rest ∧ engineReady t = false) ∧
  (∀ s : State, s.Inv → s.initialising = true →
    memRead 0x00 4 s = (0x4F4C5331#32, s) ∧ memRead 0x08 4 s = (0x00000001#32, s) ∧
    (∀ a n, ¬(n = 4 ∧ (a = 0x00 ∨ a = 0x08)) →
      (memRead a n s).2.status.proto = true ∧ (memRead a n s).2.initialising = true ∧
      (memRead a n s).2.statusWord = 0x00000001#32) ∧
    (∀ a n v, (memWrite a n v s).status.proto = true ∧ (memWrite a n v s).initialising = true ∧
      (memWrite a n v s).statusWord = 0x00000001#32)) ∧
  (∀ s : State, blockTurn s = true → s.initialising = true →
    ∃ t, step s = .next t ∧ t.initialising = false ∧ t.host = s.host ∧
      t.status = { busy := false, first := true, fatal := false, proto := s.status.proto })

/-- Two successful `CONFIG n` leave the same state in all the elements a rebuild writes, whatever came between, and
that of `CONFIG N_RESET` is the reset state but for `CMD`, `ARG0`, `ARG1`, `PROTO` and `FATAL`
(42 section 1, 70 section 1). -/
def Obligations.RebuildRoundTrip : Prop :=
  ∀ (n : Nat) (s s' t t' : State), (∃ k, n = 2 ^ k) → n ≤ Config.nMax →
    exec (.config n) s = .next t → exec (.config n) s' = .next t' →
    t.regs = { t'.regs with cmd := s.regs.cmd, arg0 := s.regs.arg0, arg1 := s.regs.arg1 } ∧
    t.mem = t'.mem ∧ t.status.first = t'.status.first ∧ t.status.busy = t'.status.busy ∧
    (n = Config.nReset →
      t.regs = { State.reset.regs with cmd := s.regs.cmd, arg0 := s.regs.arg0, arg1 := s.regs.arg1 } ∧
      t.mem = State.reset.mem ∧ t.status.first = State.reset.status.first ∧
      t.status.busy = State.reset.status.busy)

/-! ### The filter's arithmetic (00_scope.md R11 to R13, 40_ols_commands.md section 5) -/

/-- The transforms, unscaled, with a negative exponent forward and a positive one back, and
`IDFT_L(DFT_L(v)) = L*v` (00 R11). -/
def Obligations.InverseTransformInverts : Prop :=
  ∀ (L : ℕ) (v : ℕ → ℂ),
    (∀ k < L, dft L v k = ∑ n ∈ Finset.range L, v n * Complex.exp (2 * Real.pi * Complex.I / L) ^ (-((k : ℤ) * n))) ∧
    (∀ n < L, idft L v n = ∑ k ∈ Finset.range L, v k * Complex.exp (2 * Real.pi * Complex.I / L) ^ ((k : ℤ) * n)) ∧
    ∀ n < L, idft L (dft L v) n = L * v n

/-- The exact model's law: with at most `N + 1` taps the back half of the circular convolution is the direct
convolution, so `ref_apply` of a `ref_build` profile is it (40 section 5, direct-convolution form; retuning is the
case of any history `w`). -/
def Obligations.ExactModelConvolves : Prop :=
  ∀ (N M : ℕ) (h w : ℕ → ℂ), M ≤ N + 1 → ∀ j < N,
    refApply N w (refBuild (2 * N) (fun n => if n < M then h n else 0)) j =
      ∑ t ∈ Finset.range M, h t * w (N + j - t)

/-- The machine's `APPLY` within the accuracy of its numerics ON THE ARGUMENTS AT HAND (log 15): where the profile was
built from the finite coefficients `c[0..M)` within `eps_b`, and this `APPLY` of finite data is within `eps_a`, each
output sample is finite and is the direct convolution within a bound that scales with the data; with
`eps_b = eps_a = 0` it is exact (00 section 6, 40 section 5). -/
def Obligations.ApplyConvolvesWithinAcc : Prop :=
  ∀ (num : Numerics) (epsB epsA : ℝ) (s : State) (c : List Sample) (M : ℕ), 0 ≤ epsB → 0 ≤ epsA →
    1 ≤ s.blockSize → s.mem.wf s.blockSize → M ≤ s.blockSize + 1 →
    s.mem.profile = num.build (2 * s.blockSize) (zeroPad (2 * s.blockSize) M c) →
    (∀ n < M, (entry c n).isFinite = true) → allFinite (firstCallWork s) = true →
    num.AccBuildOn epsB (2 * s.blockSize) (zeroPad (2 * s.blockSize) M c) →
    num.AccApplyOn epsA s.blockSize (firstCallWork s) s.mem.profile →
    (applyWith num s).mem.out.length = s.blockSize ∧
    ∀ j < s.blockSize,
      (entry (applyWith num s).mem.out j).isFinite = true ∧
      ‖values (applyWith num s).mem.out j -
          ∑ t ∈ Finset.range M, values c t * values (firstCallWork s) (s.blockSize + j - t)‖
        ≤ (epsB + epsA * (1 + epsB)) * sumNorm (firstCallWork s) *
          ∑ t ∈ Finset.range M, ‖values c t‖

/-- A stream of finite blocks, from `FIRST = 1` or a history of `CZERO`, equals the direct convolution of the whole signal
with zero initial state, from the first sample, within the same bound at each block, where the build and each `APPLY`
of the stream are within `eps_b` and `eps_a` on their own arguments (log 15; 40 section 5); with `eps_b = eps_a = 0` it
is exact, which is the law of the exact model on data whose results are binary32 values. -/
def Obligations.StreamIsDirectConvolution : Prop :=
  ∀ (num : Numerics) (epsB epsA : ℝ) (s : State) (c : List Sample) (M : ℕ) (x : ℕ → List Sample),
    0 ≤ epsB → 0 ≤ epsA → 1 ≤ s.blockSize → s.mem.wf s.blockSize → M ≤ s.blockSize + 1 →
    s.status.first = true ∨ (∀ k < s.blockSize, entry s.mem.work k = CZERO) →
    s.mem.profile = num.build (2 * s.blockSize) (zeroPad (2 * s.blockSize) M c) →
    (∀ n < M, (entry c n).isFinite = true) →
    (∀ b, (x b).length = s.blockSize ∧ allFinite (x b) = true) →
    num.AccBuildOn epsB (2 * s.blockSize) (zeroPad (2 * s.blockSize) M c) →
    (∀ b, num.AccApplyOn epsA s.blockSize (firstCallWork (streamBefore num x s b)) s.mem.profile) →
    ∀ b, ∀ j < s.blockSize,
      (entry (streamWith num x s b).mem.out j).isFinite = true ∧
      ‖values (streamWith num x s b).mem.out j -
          directConv M (values c) (streamValue s.blockSize x) (b * s.blockSize + j)‖
        ≤ (epsB + epsA * (1 + epsB)) *
          ((if b = 0 then 0 else sumNorm (x (b - 1))) + sumNorm (x b)) * ∑ t ∈ Finset.range M, ‖values c t‖

/-- The law of a stream in the exact model itself, over complex numbers: with at most `N + 1` taps and each block's
history the block before it (silence before the first), every output sample is the direct convolution of the whole
signal (40 section 5). -/
def Obligations.ExactModelStreams : Prop :=
  ∀ (N M : ℕ) (h x : ℕ → ℂ), M ≤ N + 1 → ∀ b, ∀ j < N,
    refApply N (fun n => if N ≤ b * N + n then x (b * N + n - N) else 0)
        (refBuild (2 * N) fun n => if n < M then h n else 0) j =
      directConv M h x (b * N + j)

/-- Zero in, zero out: with a finite profile and a work buffer that is zero in value after the first-call zeroing,
every output sample is zero in value, for any `eps_a` within which the numerics are on this `APPLY`'s own arguments
(40 section 5, log 15). -/
def Obligations.ZeroInZeroOut : Prop :=
  ∀ (num : Numerics) (epsA : ℝ) (s : State), s.mem.wf s.blockSize → allFinite s.mem.profile = true →
    allFinite (firstCallWork s) = true → (∀ k < 2 * s.blockSize, values (firstCallWork s) k = 0) →
    num.AccApplyOn epsA s.blockSize (firstCallWork s) s.mem.profile →
    ∀ j < s.blockSize, values (applyWith num s).mem.out j = 0

/-- `APPLY` of the machine is `APPLY` with the machine's numerics, and `BUILD` likewise, so the statements made of
every `num` hold of `Config.num` (00 section 6). -/
def Obligations.MachineRunsItsNumerics : Prop :=
  ∀ (m : Nat) (s : State), exec .apply s = .next (applyWith Config.num s) ∧
    exec (.build m) s = .next (buildWith Config.num m s)
end

