-- ==== Sys2Proof/Laws/State.lean ====
section
/-! SUPPORT. What each named update leaves in each field: one lemma a field, all by `rfl`. -/

namespace Sys2Proof.Machine

section finish
variable (c : StatusCode) (s : State)
@[simp] theorem finish_result : (finish c s).regs.result = codeWord c := rfl
@[simp] theorem finish_cmd : (finish c s).regs.cmd = s.regs.cmd := rfl
@[simp] theorem finish_arg0 : (finish c s).regs.arg0 = s.regs.arg0 := rfl
@[simp] theorem finish_arg1 : (finish c s).regs.arg1 = s.regs.arg1 := rfl
@[simp] theorem finish_res0 : (finish c s).regs.res0 = s.regs.res0 := rfl
@[simp] theorem finish_res1 : (finish c s).regs.res1 = s.regs.res1 := rfl
@[simp] theorem finish_blkSize : (finish c s).regs.blkSize = s.regs.blkSize := rfl
@[simp] theorem finish_fftLen : (finish c s).regs.fftLen = s.regs.fftLen := rfl
@[simp] theorem finish_nTaps : (finish c s).regs.nTaps = s.regs.nTaps := rfl
@[simp] theorem finish_pbLo : (finish c s).regs.pbLo = s.regs.pbLo := rfl
@[simp] theorem finish_pbHi : (finish c s).regs.pbHi = s.regs.pbHi := rfl
@[simp] theorem finish_busy : (finish c s).status.busy = false := rfl
@[simp] theorem finish_first : (finish c s).status.first = s.status.first := rfl
@[simp] theorem finish_fatal : (finish c s).status.fatal = s.status.fatal := rfl
@[simp] theorem finish_proto : (finish c s).status.proto = s.status.proto := rfl
@[simp] theorem finish_mem : (finish c s).mem = s.mem := rfl
@[simp] theorem finish_initialising : (finish c s).initialising = s.initialising := rfl
@[simp] theorem finish_host : (finish c s).host = s.host := rfl
@[simp] theorem finish_delay : (finish c s).delay = s.delay := rfl
@[simp] theorem finish_draws : (finish c s).draws = s.draws := rfl
@[simp] theorem finish_blockSize : (finish c s).blockSize = s.blockSize := rfl
@[simp] theorem finish_fftLength : (finish c s).fftLength = s.fftLength := rfl
end finish

section raiseProto
variable (s : State)
@[simp] theorem raiseProto_regs : (raiseProto s).regs = s.regs := rfl
@[simp] theorem raiseProto_busy : (raiseProto s).status.busy = s.status.busy := rfl
@[simp] theorem raiseProto_first : (raiseProto s).status.first = s.status.first := rfl
@[simp] theorem raiseProto_fatal : (raiseProto s).status.fatal = s.status.fatal := rfl
@[simp] theorem raiseProto_proto : (raiseProto s).status.proto = true := rfl
@[simp] theorem raiseProto_mem : (raiseProto s).mem = s.mem := rfl
@[simp] theorem raiseProto_initialising : (raiseProto s).initialising = s.initialising := rfl
@[simp] theorem raiseProto_host : (raiseProto s).host = s.host := rfl
@[simp] theorem raiseProto_delay : (raiseProto s).delay = s.delay := rfl
@[simp] theorem raiseProto_draws : (raiseProto s).draws = s.draws := rfl
end raiseProto

section raiseFatal
variable (s : State)
@[simp] theorem raiseFatal_busy : (raiseFatal s).status.busy = false := rfl
@[simp] theorem raiseFatal_first : (raiseFatal s).status.first = s.status.first := rfl
@[simp] theorem raiseFatal_fatal : (raiseFatal s).status.fatal = true := rfl
@[simp] theorem raiseFatal_proto : (raiseFatal s).status.proto = s.status.proto := rfl
@[simp] theorem raiseFatal_initialising : (raiseFatal s).initialising = s.initialising := rfl
@[simp] theorem raiseFatal_host : (raiseFatal s).host = s.host := rfl
@[simp] theorem raiseFatal_delay : (raiseFatal s).delay = s.delay := rfl
end raiseFatal

section anyWord
variable (s : State)
@[simp] theorem anyWord_regs : (anyWord s).2.regs = s.regs := rfl
@[simp] theorem anyWord_status : (anyWord s).2.status = s.status := rfl
@[simp] theorem anyWord_mem : (anyWord s).2.mem = s.mem := rfl
@[simp] theorem anyWord_initialising : (anyWord s).2.initialising = s.initialising := rfl
@[simp] theorem anyWord_host : (anyWord s).2.host = s.host := rfl
@[simp] theorem anyWord_delay : (anyWord s).2.delay = s.delay := rfl
end anyWord

section acceptCommand
variable (v : Word) (s : State)
@[simp] theorem acceptCommand_cmd : (acceptCommand v s).regs.cmd = v := rfl
@[simp] theorem acceptCommand_regs : (acceptCommand v s).regs = { s.regs with cmd := v } := rfl
@[simp] theorem acceptCommand_status : (acceptCommand v s).status = { s.status with busy := true } := rfl
@[simp] theorem acceptCommand_mem : (acceptCommand v s).mem = s.mem := rfl
@[simp] theorem acceptCommand_initialising : (acceptCommand v s).initialising = s.initialising := rfl
@[simp] theorem acceptCommand_host : (acceptCommand v s).host = s.host := rfl
end acceptCommand

section takeAccess
variable (rest : List HostAct) (s : State)
@[simp] theorem takeAccess_regs : (takeAccess rest s).regs = s.regs := rfl
@[simp] theorem takeAccess_status : (takeAccess rest s).status = s.status := rfl
@[simp] theorem takeAccess_mem : (takeAccess rest s).mem = s.mem := rfl
@[simp] theorem takeAccess_initialising : (takeAccess rest s).initialising = s.initialising := rfl
@[simp] theorem takeAccess_script : (takeAccess rest s).host.script = rest := rfl
@[simp] theorem takeAccess_received : (takeAccess rest s).host.received = s.host.received := rfl
@[simp] theorem takeAccess_delay : (takeAccess rest s).delay = s.delay - 1 := rfl
@[simp] theorem takeAccess_draws : (takeAccess rest s).draws = s.draws := rfl
end takeAccess

section receive
variable (r : Word × State)
@[simp] theorem receive_regs : (receive r).regs = r.2.regs := rfl
@[simp] theorem receive_status : (receive r).status = r.2.status := rfl
@[simp] theorem receive_mem : (receive r).mem = r.2.mem := rfl
@[simp] theorem receive_initialising : (receive r).initialising = r.2.initialising := rfl
@[simp] theorem receive_script : (receive r).host.script = r.2.host.script := rfl
@[simp] theorem receive_received : (receive r).host.received = r.1 :: r.2.host.received := rfl
@[simp] theorem receive_delay : (receive r).delay = r.2.delay := rfl
end receive

section pollStatus
variable (r : Word × State)
@[simp] theorem pollStatus_regs : (pollStatus r).regs = r.2.regs := by unfold pollStatus; split <;> rfl
@[simp] theorem pollStatus_status : (pollStatus r).status = r.2.status := by unfold pollStatus; split <;> rfl
@[simp] theorem pollStatus_mem : (pollStatus r).mem = r.2.mem := by unfold pollStatus; split <;> rfl
@[simp] theorem pollStatus_initialising : (pollStatus r).initialising = r.2.initialising := by
  unfold pollStatus; split <;> rfl
end pollStatus

section reset
variable (s : State)
@[simp] theorem assertReset_status : (assertReset s).status = ⟨true, false, false, false⟩ := rfl
@[simp] theorem assertReset_initialising : (assertReset s).initialising = true := rfl
@[simp] theorem assertReset_host : (assertReset s).host = s.host := rfl
@[simp] theorem finishReset_regs : (finishReset s).regs = State.reset.regs := rfl
@[simp] theorem finishReset_mem : (finishReset s).mem = State.reset.mem := rfl
@[simp] theorem finishReset_busy : (finishReset s).status.busy = false := rfl
@[simp] theorem finishReset_first : (finishReset s).status.first = true := rfl
@[simp] theorem finishReset_fatal : (finishReset s).status.fatal = false := rfl
@[simp] theorem finishReset_proto : (finishReset s).status.proto = s.status.proto := rfl
@[simp] theorem finishReset_initialising : (finishReset s).initialising = false := rfl
@[simp] theorem finishReset_host : (finishReset s).host = s.host := rfl
end reset

section inFlight
variable (w : Word) (s : State)
@[simp] theorem inFlight_cmd : (inFlight w s).regs.cmd = w := rfl
@[simp] theorem inFlight_busy : (inFlight w s).status.busy = true := rfl
@[simp] theorem inFlight_fatal : (inFlight w s).status.fatal = false := rfl
@[simp] theorem inFlight_initialising : (inFlight w s).initialising = false := rfl
@[simp] theorem inFlight_delay : (inFlight w s).delay = 0 := rfl
@[simp] theorem inFlight_mem : (inFlight w s).mem = s.mem := rfl
@[simp] theorem inFlight_host : (inFlight w s).host = s.host := rfl
end inFlight

end Sys2Proof.Machine
end

