-- ==== Sys2Proof/Laws/Params.lean ====
section
/-! SUPPORT. The parameters meet the constraints of 00_scope.md R5, and the block sizes' arithmetic (00 R8). -/

namespace Sys2Proof

theorem scenario_ok : Params.scenario.Ok := by decide

namespace Config

theorem params_ok : params.Ok := by
  unfold params
  split
  · assumption
  · exact scenario_ok

theorem pMax_le : params.pMax ≤ 16 := params_ok.1
theorem fs_finite : isFinite fs = true := params_ok.2.2.1
theorem fs_pos : 0 < f32Scaled fs := params_ok.2.2.2.1
theorem minBw_finite : isFinite minBw = true := params_ok.2.2.2.2.1
theorem minBw_pos : 0 < f32Scaled minBw := params_ok.2.2.2.2.2.1
theorem default_valid : validPB fs minBw defLo defHi = .ok := params_ok.2.2.2.2.2.2

theorem nMax_pos : 1 ≤ nMax := Nat.one_le_two_pow
theorem nMax_le : nMax ≤ 65536 := Nat.pow_le_pow_right (by decide) pMax_le (n := 2)
theorem nReset_pos : 1 ≤ nReset := Nat.one_le_two_pow
theorem nReset_le : nReset ≤ nMax := Nat.pow_le_pow_right (by decide) params_ok.2.1

end Config

/-- `isPow2` is the powers of two (00 R8). -/
theorem isPow2_iff (n : Nat) : isPow2 n = true ↔ ∃ k, n = 2 ^ k := by
  simp only [isPow2, decide_eq_true_eq]
  constructor
  · exact fun h => ⟨_, h⟩
  · rintro ⟨k, rfl⟩
    rw [Nat.log2_two_pow]

theorem isPow2_pos {n : Nat} (h : isPow2 n = true) : 1 ≤ n := by
  obtain ⟨k, rfl⟩ := (isPow2_iff n).1 h
  exact Nat.one_le_two_pow

theorem isPow2_nReset : isPow2 Config.nReset = true := (isPow2_iff _).2 ⟨_, rfl⟩

namespace Machine

theorem validBlockSize_iff (n : Nat) :
    validBlockSize n = true ↔ isPow2 n = true ∧ n ≤ Config.nMax := by
  simp [validBlockSize]

theorem validBlockSize_nReset : validBlockSize Config.nReset = true :=
  (validBlockSize_iff _).2 ⟨isPow2_nReset, Config.nReset_le⟩

end Machine

end Sys2Proof
end

