-- ==== Sys2Proof/Laws/Memory.lean ====
section
/-! SUPPORT. Lengths and entries of the sequences the commands write, and that the memory operations keep the
canonical form `Memory.wf`. -/

namespace Sys2Proof

section lengths
variable (num : Numerics) (N L m n : Nat) (v w p : List Sample)
@[simp] theorem zeros_length : (zeros n).length = n := by simp [zeros]
@[simp] theorem zeroPad_length : (zeroPad L m v).length = L := by simp [zeroPad]
@[simp] theorem Numerics.build_length : (num.build L v).length = L := by simp [Numerics.build]
@[simp] theorem Numerics.apply_length : (num.apply N w p).length = N := by simp [Numerics.apply]
@[simp] theorem Config.design_length (lo hi fs : Word) : (Config.design lo hi fs m).length = m := by
  simp [Config.design]
@[simp] theorem defaultCoef_length : (defaultCoef n).length = n + 1 := by simp [defaultCoef]
@[simp] theorem defaultProfile_length : (defaultProfile n).length = 2 * n := by simp [defaultProfile]
theorem zeroHistory_length (h : v.length = 2 * N) : (zeroHistory N v).length = 2 * N := by
  simp [zeroHistory, h]; omega
theorem saveHistory_length (h : v.length = 2 * N) : (saveHistory N v).length = 2 * N := by
  simp [saveHistory, h]; omega
@[simp] theorem setEntryHalf_length (k a : Nat) (x : Word) : (setEntryHalf v k a x).length = v.length := by
  simp [setEntryHalf]
end lengths

section entries
variable {N k : Nat} {v : List Sample}

theorem entry_eq_getElem (h : k < v.length) : entry v k = v[k] := by
  simp [entry, List.getD, h]

@[simp] theorem entry_zeros (n k : Nat) : entry (zeros n) k = CZERO := by
  by_cases h : k < n <;> simp [entry, zeros, List.getD, h]

theorem entry_zeroHistory_front (h : k < N) : entry (zeroHistory N v) k = CZERO := by
  simp [entry, zeroHistory, zeros, List.getD, List.getElem?_append_left, h]

theorem entry_zeroHistory_back (h : N ≤ k) : entry (zeroHistory N v) k = entry v k := by
  have : N + (k - N) = k := by omega
  simp [entry, zeroHistory, List.getD, List.getElem?_append_right, h, this]

theorem entry_saveHistory_front (h : k < N) : entry (saveHistory N v) k = entry v (N + k) := by
  simp [entry, saveHistory, List.getD, List.getElem?_append_left, h]

theorem entry_saveHistory_back (h : N ≤ k) : entry (saveHistory N v) k = entry v k := by
  have : N + (k - N) = k := by omega
  simp [entry, saveHistory, List.getD, List.getElem?_append_right, h, this]

theorem entry_build (num : Numerics) {L : Nat} (h : List Sample) (hk : k < L) :
    entry (num.build L h) k = num.buildAt L h k := by
  simp [entry, Numerics.build, List.getD, hk]

theorem entry_apply (num : Numerics) (w p : List Sample) (hk : k < N) :
    entry (num.apply N w p) k = num.applyAt N w p k := by
  simp [entry, Numerics.apply, List.getD, hk]

theorem entry_zeroPad {L m : Nat} (c : List Sample) (hk : k < L) :
    entry (zeroPad L m c) k = if k < m then entry c k else CZERO := by
  simp [entry, zeroPad, List.getD, hk]

theorem entry_setEntryHalf_same (a : Nat) (x : Word) (h : k < v.length) :
    entry (setEntryHalf v k a x) k = (entry v k).setHalf a x := by
  simp [entry, setEntryHalf, List.getD, h]

theorem entry_setEntryHalf_other {j : Nat} (a : Nat) (x : Word) (h : j ≠ k) :
    entry (setEntryHalf v k a x) j = entry v j := by
  simp [entry, setEntryHalf, List.getD, Ne.symm h]

/-- An index within the length has its entry. -/
theorem getElem?_eq_entry (h : k < v.length) : v[k]? = some (entry v k) := by
  rw [entry_eq_getElem h, List.getElem?_eq_getElem h]

/-- All of the coefficients, zero-padded: the coefficients followed by `CZERO`. -/
theorem zeroPad_eq_append {L m : Nat} {c : List Sample} (hc : c.length = m) (hm : m ≤ L) :
    zeroPad L m c = c ++ List.replicate (L - m) CZERO := by
  apply List.ext_getElem?
  intro k
  by_cases hk : k < L
  · rw [getElem?_eq_entry (by simp [hk]), entry_zeroPad _ hk]
    by_cases hkm : k < m
    · rw [if_pos hkm, List.getElem?_append_left (by omega), getElem?_eq_entry (by omega)]
    · rw [if_neg hkm, List.getElem?_append_right (by omega), List.getElem?_replicate, if_pos (by omega)]
  · rw [List.getElem?_eq_none (by simp; omega), List.getElem?_eq_none (by simp; omega)]

theorem zeroHistory_getElem?_front (h : k < N) : (zeroHistory N v)[k]? = some CZERO := by
  simp [zeroHistory, zeros, List.getElem?_append_left, h]

theorem zeroHistory_getElem?_back (h : N ≤ k) : (zeroHistory N v)[k]? = v[k]? := by
  have : N + (k - N) = k := by omega
  simp [zeroHistory, List.getElem?_append_right, h, this]

/-- Zeroing the history twice is zeroing it once (40 R91). -/
theorem zeroHistory_twice (N : Nat) (v : List Sample) : zeroHistory N (zeroHistory N v) = zeroHistory N v := by
  apply List.ext_getElem?; intro k
  by_cases h : k < N
  · rw [zeroHistory_getElem?_front h, zeroHistory_getElem?_front h]
  · rw [zeroHistory_getElem?_back (by omega)]

theorem saveHistory_getElem?_back (h : N ≤ k) : (saveHistory N v)[k]? = v[k]? := by
  have : N + (k - N) = k := by omega
  simp [saveHistory, List.getElem?_append_right, h, this]

/-- Every sample of a finite sequence is finite, and conversely. -/
theorem allFinite_iff (v : List Sample) : allFinite v = true ↔ ∀ k < v.length, (entry v k).isFinite = true := by
  unfold allFinite
  rw [List.all_eq_true]
  constructor
  · intro h k hk; rw [entry_eq_getElem hk]; exact h _ (List.getElem_mem hk)
  · intro h c hc
    obtain ⟨k, hk, rfl⟩ := List.getElem_of_mem hc
    rw [← entry_eq_getElem hk]; exact h k hk

end entries

@[simp] theorem Sample.half_setHalf_same (c : Sample) (a : Nat) (x : Word) : (c.setHalf a x).half a = x := by
  unfold Sample.half Sample.setHalf; split <;> rfl

/-- The other half of a sample is untouched (20 R47). -/
theorem Sample.half_setHalf_other (c : Sample) (a b : Nat) (x : Word) (h : a / 4 % 2 ≠ b / 4 % 2) :
    (c.setHalf a x).half b = c.half b := by
  unfold Sample.half Sample.setHalf
  by_cases h0 : a / 4 % 2 = 0 <;> simp [h0] <;> split <;> simp_all

namespace Machine

@[simp] theorem Memory.get_put_same (m : Memory) (w : Window) (v : List Sample) : (m.put w v).get w = v := by
  cases w <;> rfl

theorem Memory.get_put_other (m : Memory) {w w' : Window} (v : List Sample) (h : w' ≠ w) :
    (m.put w v).get w' = m.get w' := by
  cases w <;> cases w' <;> first | rfl | exact absurd rfl h

/-- Replacing a memory by one of the same length keeps the canonical form. -/
theorem Memory.put_wf {n : Nat} {m : Memory} (w : Window) {v : List Sample} (h : m.wf n)
    (hv : v.length = (m.get w).length) : (m.put w v).wf n := by
  obtain ⟨h1, h2, h3, h4⟩ := h
  cases w <;> simp_all [Memory.put, Memory.get, Memory.wf]

/-- A memory in canonical form has the current size of its window (20 R48). -/
theorem Memory.get_length {n : Nat} {m : Memory} (h : m.wf n) (w : Window) :
    (m.get w).length = windowSize n w := by
  obtain ⟨h1, h2, h3, h4⟩ := h
  cases w <;> assumption

/-- A host write to a window entry keeps the canonical form. -/
theorem writeWindow_wf {w : Window} {base a : Nat} {v : Word} {s : State} {n : Nat} (h : s.mem.wf n) :
    (writeWindow w base a v s).mem.wf n := by
  unfold writeWindow
  split
  · exact h
  · split
    · exact Memory.put_wf w h (by simp)
    · exact h

/-- A host write keeps the canonical form. -/
theorem memWrite_wf {a n' : Nat} {v : Word} {s : State} {n : Nat} (h : s.mem.wf n) :
    (memWrite a n' v s).mem.wf n := by
  unfold memWrite writeReg
  repeat' split
  all_goals first | exact h | exact writeWindow_wf h

theorem buildWith_wf (num : Numerics) {m : Nat} {s : State} (hL : s.fftLength = 2 * s.blockSize)
    (h : s.mem.wf s.blockSize) : (buildWith num m s).mem.wf s.blockSize := by
  unfold buildWith
  split
  · exact h
  · exact ⟨h.1, by simp [hL], h.2.2⟩

theorem firstCallWork_length {s : State} (h : s.mem.work.length = 2 * s.blockSize) :
    (firstCallWork s).length = 2 * s.blockSize := by
  unfold firstCallWork
  split
  · exact zeroHistory_length _ _ h
  · exact h

/-- The output block of `APPLY`, sample by sample (40 R92). -/
theorem applyWith_out {num : Numerics} {s : State} (h : s.mem.wf s.blockSize) {j : Nat} (hj : j < s.blockSize) :
    (applyWith num s).mem.out[j]? = some (num.applyAt s.blockSize (firstCallWork s) s.mem.profile j) := by
  show (num.apply s.blockSize ((firstCallWork s).take (2 * s.blockSize))
    (s.mem.profile.take (2 * s.blockSize)))[j]? = _
  rw [List.take_of_length_le (le_of_eq (firstCallWork_length h.2.2.1)), List.take_of_length_le (le_of_eq h.2.1)]
  simp [Numerics.apply, hj]

theorem applyWith_wf (num : Numerics) {s : State} (h : s.mem.wf s.blockSize) :
    (applyWith num s).mem.wf s.blockSize := by
  obtain ⟨h1, h2, h3, -⟩ := h
  exact ⟨h1, h2, saveHistory_length _ _ (firstCallWork_length h3), by simp [applyWith]⟩

theorem restart_wf {s : State} (h : s.mem.wf s.blockSize) :
    (finish .ok { s with mem.work := zeroHistory s.blockSize s.mem.work }).mem.wf s.blockSize :=
  ⟨h.1, h.2.1, zeroHistory_length _ _ h.2.2.1, h.2.2.2⟩

theorem setPassband_wf {lo hi : Word} {s : State} (hL : s.fftLength = 2 * s.blockSize)
    (h : s.mem.wf s.blockSize) : (setPassband lo hi s).mem.wf s.blockSize :=
  ⟨by simp [setPassband], by simp [setPassband, hL], h.2.2.1, h.2.2.2⟩

theorem rebuild_wf (n : Nat) (s : State) : (rebuild n s).mem.wf n := by simp [rebuild, Memory.wf]

theorem reset_wf : State.reset.mem.wf Config.nReset := by simp [State.reset, Memory.wf]

end Machine

end Sys2Proof
end

