-- ==== Sys2Proof/Laws/Ops.lean ====
section
/-! SUPPORT. What each shared operation can do, said once: the provers cite these instead of unfolding it. -/

namespace Sys2Proof.Machine

/-- A read leaves the state as it is, or draws a value, or records a protocol fault and draws a value. -/
theorem memRead_cases (a n : Nat) (s : State) :
    (∃ v, memRead a n s = (v, s)) ∨ (s.status.fatal = true ∧ memRead a n s = anyWord s) ∨
      (s.status.fatal = false ∧ memRead a n s = anyWord (raiseProto s)) := by
  unfold memRead
  cases hf : s.status.fatal
  · simp only [Bool.false_eq_true, if_false]
    repeat' split
    all_goals simp
  · simp only [if_true]
    repeat' split
    all_goals simp

@[simp] theorem memRead_regs (a n : Nat) (s : State) : (memRead a n s).2.regs = s.regs := by
  rcases memRead_cases a n s with ⟨v, h⟩ | ⟨-, h⟩ | ⟨-, h⟩ <;> simp [h]
@[simp] theorem memRead_mem (a n : Nat) (s : State) : (memRead a n s).2.mem = s.mem := by
  rcases memRead_cases a n s with ⟨v, h⟩ | ⟨-, h⟩ | ⟨-, h⟩ <;> simp [h]
@[simp] theorem memRead_host (a n : Nat) (s : State) : (memRead a n s).2.host = s.host := by
  rcases memRead_cases a n s with ⟨v, h⟩ | ⟨-, h⟩ | ⟨-, h⟩ <;> simp [h]
@[simp] theorem memRead_delay (a n : Nat) (s : State) : (memRead a n s).2.delay = s.delay := by
  rcases memRead_cases a n s with ⟨v, h⟩ | ⟨-, h⟩ | ⟨-, h⟩ <;> simp [h]
@[simp] theorem memRead_initialising (a n : Nat) (s : State) :
    (memRead a n s).2.initialising = s.initialising := by
  rcases memRead_cases a n s with ⟨v, h⟩ | ⟨-, h⟩ | ⟨-, h⟩ <;> simp [h]
@[simp] theorem memRead_busy (a n : Nat) (s : State) : (memRead a n s).2.status.busy = s.status.busy := by
  rcases memRead_cases a n s with ⟨v, h⟩ | ⟨-, h⟩ | ⟨-, h⟩ <;> simp [h]
@[simp] theorem memRead_first (a n : Nat) (s : State) : (memRead a n s).2.status.first = s.status.first := by
  rcases memRead_cases a n s with ⟨v, h⟩ | ⟨-, h⟩ | ⟨-, h⟩ <;> simp [h]
@[simp] theorem memRead_fatal (a n : Nat) (s : State) : (memRead a n s).2.status.fatal = s.status.fatal := by
  rcases memRead_cases a n s with ⟨v, h⟩ | ⟨-, h⟩ | ⟨-, h⟩ <;> simp [h]

/-- Reading `STATUS` never faults, and changes nothing (20 R52). -/
@[simp] theorem memRead_status (s : State) : memRead 0x08 4 s = (s.statusWord, s) := by
  unfold memRead
  split <;> simp [State.wordAt, RegName.ofOffset, State.readReg]

/-- A write is ignored, or records a protocol fault, or starts a command, or sets an operand register, or sets
half of an entry of a memory other than `PROFILE`. -/
theorem memWrite_cases (a n : Nat) (v : Word) (s : State) :
    (s.status.fatal = true ∧ memWrite a n v s = s) ∨
    (s.status.fatal = false ∧ memWrite a n v s = raiseProto s) ∨
    (s.status.fatal = false ∧ s.status.busy = false ∧
      (memWrite a n v s = acceptCommand v s
        ∨ memWrite a n v s = { s with regs.arg0 := v }
        ∨ memWrite a n v s = { s with regs.arg1 := v }
        ∨ ∃ w base, w ≠ .profile ∧ EntryAt s w base a ∧
          memWrite a n v s =
            { s with mem := s.mem.put w (setEntryHalf (s.mem.get w) (entryIndex a base) a v) })) := by
  cases hf : s.status.fatal
  · right
    simp only [memWrite, hf, Bool.false_eq_true, if_false]
    split
    · simp
    cases hb : s.status.busy
    · simp only [Bool.false_eq_true, if_false]
      split
      · unfold writeReg
        split <;> simp
      · rename_i ha
        split
        · rename_i w base hw
          unfold writeWindow
          split
          · simp
          · split
            · rename_i hp hk
              exact .inr ⟨trivial, trivial, .inr (.inr (.inr ⟨w, base, hp, ⟨hw, hk⟩, rfl⟩))⟩
            · simp
        · simp
    · simp
  · simp [memWrite, hf]

/-- The engine's step clears `BUSY`, leaves the host alone, and ends initialisation of nothing. -/
theorem exec_next (i : Instr) (s : State) : ∃ t, exec i s = .next t ∧ t.status.busy = false ∧
    t.host = s.host ∧ t.initialising = s.initialising ∧ t.status.proto = s.status.proto := by
  cases i with
  | nop => exact ⟨_, rfl, rfl, rfl, rfl, rfl⟩
  | config n =>
    refine ⟨_, rfl, ?_⟩
    split <;> exact ⟨rfl, rfl, rfl, rfl⟩
  | build m =>
    refine ⟨_, rfl, ?_⟩
    unfold buildWith
    split <;> exact ⟨rfl, rfl, rfl, rfl⟩
  | restart => exact ⟨_, rfl, rfl, rfl, rfl, rfl⟩
  | apply => exact ⟨_, rfl, rfl, rfl, rfl, rfl⟩
  | setPassband =>
    refine ⟨_, rfl, ?_⟩
    split <;> exact ⟨rfl, rfl, rfl, rfl⟩
  | getPassband => exact ⟨_, rfl, rfl, rfl, rfl, rfl⟩

/-- The engine's turn. -/
theorem step_engineTurn {s : State} (h : EngineTurn s) : step s = engineStep s := by
  have : s.initialising = false := by
    have := h.2; simp [engineReady] at this; exact this.2
  simp [step, h.1, h.2, this]

/-- The host's turn. -/
theorem step_hostTurn {s : State} (h : HostTurn s) : step s = hostStep s := by
  unfold step
  by_cases h1 : blockTurn s = true <;> simp_all

/-- A host write leaves `FATAL`, `FIRST`, initialisation and the host alone, and clears no `PROTO`. -/
theorem memWrite_keeps (a n : Nat) (v : Word) (s : State) :
    (memWrite a n v s).status.fatal = s.status.fatal ∧ (memWrite a n v s).status.first = s.status.first ∧
    (memWrite a n v s).initialising = s.initialising ∧ (memWrite a n v s).host = s.host ∧
    (s.status.proto = true → (memWrite a n v s).status.proto = true) := by
  rcases memWrite_cases a n v s with ⟨_, h⟩ | ⟨_, h⟩ | ⟨_, _, h | h | h | ⟨w, b, _, _, h⟩⟩ <;> simp [h]

/-- Every status code is one of the words of 60 R119. -/
theorem isStatusWord_codeWord (c : StatusCode) : isStatusWord (codeWord c) := by cases c <;> decide

/-- A code is negative exactly when it is not 0. -/
theorem codeWord_neg_iff (c : StatusCode) : (codeWord c).toInt < 0 ↔ c ≠ .ok := by cases c <;> decide

/-- Everything one step can be. -/
theorem step_cases {s t : State} (h : step s = .next t) :
    (blockTurn s = true ∧ s.initialising = true ∧ t = finishReset s) ∨
    (EngineTurn s ∧ ((∃ i, decode s.regs.cmd = .ok i ∧ exec i s = .next t) ∨
      (∃ e, decode s.regs.cmd = .error e ∧ t = execIllegal s))) ∨
    (HostTurn s ∧ ((s.host.script = [] ∧ s.status.fatal = false ∧ t = s) ∨
      ∃ act rest, s.host.script = act :: rest ∧ hostAccess act (takeAccess rest s) = .next t)) := by
  unfold step at h
  split at h
  · rename_i hc
    simp only [Bool.and_eq_true] at hc
    exact .inl ⟨hc.1, hc.2, by injection h with h; exact h.symm⟩
  · rename_i hi
    split at h
    · rename_i hc
      simp only [Bool.and_eq_true] at hc
      refine .inr (.inl ⟨hc, ?_⟩)
      unfold engineStep at h
      split at h
      · rename_i i hd; exact .inl ⟨i, hd, h⟩
      · rename_i e hd; exact .inr ⟨e, hd, by injection h with h; exact h.symm⟩
    · rename_i hc
      simp only [Bool.and_eq_true, not_and] at hi hc
      refine .inr (.inr ⟨fun ht => ht.2.elim (hi ht.1) (hc ht.1), ?_⟩)
      unfold hostStep at h
      split at h
      · rename_i hs
        split at h
        · cases h
        · rename_i hf; exact .inl ⟨hs, by simpa using hf, by injection h with h; exact h.symm⟩
      · rename_i act rest hs; exact .inr ⟨act, rest, hs, h⟩

/-- A host access that is answered is a read, a write, a poll or a reset. -/
theorem hostAccess_cases {act : HostAct} {s t : State} (h : hostAccess act s = .next t) :
    (∃ a n, act = .read a n ∧ a < 2 ^ 24 ∧ t = receive (memRead a n s)) ∨
    (∃ a n v, act = .write a n v ∧ a < 2 ^ 24 ∧ t = memWrite a n v s) ∨
    (act = .wait ∧ t = pollStatus (s.statusWord, s)) ∨
    (act = .powerOnReset ∧ t = assertReset s) := by
  cases act with
  | read a n =>
    simp only [hostAccess] at h
    split at h
    · exact .inl ⟨a, n, rfl, ‹_›, by injection h with h; exact h.symm⟩
    · cases h
  | write a n v =>
    simp only [hostAccess] at h
    split at h
    · exact .inr (.inl ⟨a, n, v, rfl, ‹_›, by injection h with h; exact h.symm⟩)
    · cases h
  | wait =>
    simp only [hostAccess, memRead_status] at h
    exact .inr (.inr (.inl ⟨rfl, by injection h with h; exact h.symm⟩))
  | powerOnReset => exact .inr (.inr (.inr ⟨rfl, by injection h with h; exact h.symm⟩))

/-- The engine moves at once after `withFetchWord`, and runs the word's instruction. -/
theorem step_inFlight (w : Word) (s : State) : step (inFlight w s) = engineStep (inFlight w s) := by
  simp [step, blockTurn, engineReady]

/-- The step after `withFetchWord` is the word's instruction. -/
theorem step_withFetchWord {s : State} {nbits w : Nat} {i : Instr} (h : decodeTableWord nbits w = some i) :
    step (s.withFetchWord nbits w) = exec i (s.withFetchWord nbits w) := by
  rw [State.withFetchWord, step_inFlight]
  unfold decodeTableWord at h
  unfold engineStep
  cases hd : decode (tableWord nbits w) <;> simp_all

end Sys2Proof.Machine
end

