-- ==== Sys2Proof/Laws/Aperture.lean ====
section
/-! SUPPORT. The windows of the aperture: where they lie, and when two states read alike through them
(20_memory.md R45 to R49). -/

namespace Sys2Proof.Machine

/-- The four windows and their spans (20 R45). -/
theorem windowAt_cases {a : ℕ} {w : Window} {base : ℕ} (h : windowAt a = some (w, base)) :
    (w = .coef ∧ base = 0x100000 ∧ 0x100000 ≤ a ∧ a < 0x200000) ∨
    (w = .profile ∧ base = 0x200000 ∧ 0x200000 ≤ a ∧ a < 0x300000) ∨
    (w = .work ∧ base = 0x300000 ∧ 0x300000 ≤ a ∧ a < 0x400000) ∨
    (w = .out ∧ base = 0x400000 ∧ 0x400000 ≤ a ∧ a < 0x500000) := by
  unfold windowAt at h
  repeat' split at h
  all_goals first
    | (rename_i hc; simp only [Option.some.injEq, Prod.mk.injEq] at h; obtain ⟨rfl, rfl⟩ := h; simp only [hc]; simp)
    | cases h

/-- The word at an offset outside the REG region is the same in two states of one block size whose existing
entries there are the same. -/
theorem wordAt_congr {s t : State} (a : ℕ) (ha : 0x100 ≤ a) (hN : t.blockSize = s.blockSize)
    (h : ∀ w base, EntryAt s w base a →
      entry (t.mem.get w) (entryIndex a base) = entry (s.mem.get w) (entryIndex a base)) :
    t.wordAt a = s.wordAt a := by
  unfold State.wordAt
  rw [if_neg (by omega), if_neg (by omega), hN]
  cases hw : windowAt a with
  | none => rfl
  | some p =>
    obtain ⟨w, base⟩ := p
    dsimp only
    split
    · rename_i hk; rw [h w base ⟨hw, hk⟩]
    · rfl

/-- A byte is the same in two states that have the same word there. -/
theorem byteAt_congr {s t : State} {a : ℕ} (h : t.wordAt (a - a % 4) = s.wordAt (a - a % 4)) :
    t.byteAt a = s.byteAt a := by
  simp [State.byteAt, h]

/-- Equal memories and sizes read alike outside the REG region. -/
theorem byteAt_of_mem_eq {s t : State} {a : ℕ} (ha : 0x100 ≤ a) (h1 : t.mem = s.mem)
    (h2 : t.blockSize = s.blockSize) : t.byteAt a = s.byteAt a :=
  byteAt_congr (wordAt_congr _ (by omega) h2 fun w base _ => by rw [h1])

/-- A read of an idle block (20 R52). -/
theorem memRead_idle {s : State} {a : ℕ} (hi : Idle s) (ha : a % 4 = 0) :
    memRead a 4 s = match s.wordAt a with
      | some v => (v, s)
      | none => anyWord (raiseProto s) := by
  unfold memRead
  rw [if_neg (by simp [hi.1]), if_neg (by simp [ha]), if_neg (by simp [hi.2])] <;> rfl

/-- A write to an idle block (20 R53). -/
theorem memWrite_idle {s : State} {a : ℕ} (v : Word) (hi : Idle s) (ha : a % 4 = 0) :
    memWrite a 4 v s = if a < 0x100 then writeReg a v s else match windowAt a with
      | some (w, base) => writeWindow w base a v s
      | none => raiseProto s := by
  unfold memWrite
  rw [if_neg (by simp [hi.1]), if_neg (by simp [ha]), if_neg (by simp [hi.2])] <;> rfl

end Sys2Proof.Machine
end

