-- ==== Sys2Proof/Laws/PerInstr.lean ====
section
/-! SUPPORT. Statements about every command as syntax, one lemma a constructor. -/

namespace Sys2Proof.Laws

/-- `OPC` of a well-formed command's word is the command's opcode (30_encoding.md R67, R71, R79). -/
def OpcodeField.Statement (i : Instr) : Prop := i.WellFormed → opcOf (encode i) = i.opcode

/-- The word of a well-formed command as a number: its operand times `2^8`, plus its opcode. -/
theorem encode_toNat (imm opc : Nat) (himm : imm < 2 ^ 24) (hopc : opc < 2 ^ 8) :
    ((BitVec.ofNat 32 imm <<< 8) ||| BitVec.ofNat 32 opc).toNat = imm * 2 ^ 8 + opc := by
  have h : (BitVec.ofNat 32 imm <<< 8) ||| BitVec.ofNat 32 opc = BitVec.ofNat 32 (imm * 2 ^ 8 + opc) := by
    apply BitVec.eq_of_toNat_eq
    simp only [BitVec.toNat_or, BitVec.toNat_shiftLeft, BitVec.toNat_ofNat]
    rw [Nat.mod_eq_of_lt (a := imm) (by omega), Nat.mod_eq_of_lt (a := opc) (by omega),
      Nat.mod_eq_of_lt (a := imm * 2 ^ 8 + opc) (by omega), Nat.shiftLeft_eq,
      Nat.mod_eq_of_lt (a := imm * 2 ^ 8) (by omega), Nat.mul_comm]
    exact (Nat.two_pow_add_eq_or_of_lt hopc imm).symm
  rw [h, BitVec.toNat_ofNat, Nat.mod_eq_of_lt (by omega)]

theorem OpcodeField.nop : OpcodeField.Statement .nop := fun _ => by decide
theorem OpcodeField.config (n : Nat) : OpcodeField.Statement (.config n) := fun h => by
  simp only [opcOf, encode, Instr.immediate, Instr.opcode, encode_toNat n 1 h (by decide)]; omega
theorem OpcodeField.build (m : Nat) : OpcodeField.Statement (.build m) := fun h => by
  simp only [opcOf, encode, Instr.immediate, Instr.opcode, encode_toNat m 2 h (by decide)]; omega
theorem OpcodeField.restart : OpcodeField.Statement .restart := fun _ => by decide
theorem OpcodeField.apply : OpcodeField.Statement .apply := fun _ => by decide
theorem OpcodeField.setPassband : OpcodeField.Statement .setPassband := fun _ => by decide
theorem OpcodeField.getPassband : OpcodeField.Statement .getPassband := fun _ => by decide

end Sys2Proof.Laws
end

