-- ==== Sys2Proof/Laws/Decode.lean ====
section
/-! SUPPORT. What the decoder reads from a word, and the two fields as bit fields (30_encoding.md R67, R69, R72). -/

namespace Sys2Proof

/-- `OPC` as the bit field `w[7:0]`. -/
theorem extract_opc (w : Word) : (w.extractLsb' 0 8).toNat = opcOf w := by simp [opcOf]

/-- `IMM24` as the bit field `w[31:8]`. -/
theorem extract_imm24 (w : Word) : (w.extractLsb' 8 24).toNat = imm24Of w := by
  have := w.isLt
  simp [imm24Of, Nat.shiftRight_eq_div_pow]; omega

theorem imm24Of_lt (w : Word) : imm24Of w < 2 ^ 24 := by
  have := w.isLt
  unfold imm24Of; omega

/-- The decoder gives a command exactly when both fields are the command's. -/
theorem decode_iff (w : Word) (i : Instr) : decode w = .ok i ↔ opcOf w = i.opcode ∧ imm24Of w = i.immediate := by
  constructor
  · intro h
    unfold decode at h
    split at h <;> rename_i ho
    all_goals first
      | (unfold withoutOperand at h; split at h
         · rename_i h0; injection h with h; subst h; exact ⟨ho, h0⟩
         · cases h)
      | (injection h with h; subst h; exact ⟨ho, rfl⟩)
      | cases h
  · rintro ⟨h1, h2⟩
    unfold decode
    rw [h1]
    cases i <;> simp_all [Instr.opcode, Instr.immediate, withoutOperand]

end Sys2Proof
end

