-- ==== Sys2Proof/Laws/Numerics.lean ====
section
/-! SUPPORT. Values of samples and the size of the reference transforms (00_scope.md R9 to R13). -/

namespace Sys2Proof

@[simp] theorem val_CZERO : CZERO.val = 0 := by
  have h : f32 0x00000000#32 = 0 := by
    have : f32Scaled 0x00000000#32 = 0 := by decide
    simp [f32, this]
  apply Complex.ext <;> simp [Sample.val, CZERO, h]

@[simp] theorem norm_omega (L : ℕ) : ‖omega L‖ = 1 := by
  have h : (2 * Real.pi * Complex.I / L : ℂ) = ((2 * Real.pi / L : ℝ) : ℂ) * Complex.I := by
    push_cast; ring
  rw [omega, h, Complex.norm_exp_ofReal_mul_I]

@[simp] theorem norm_omega_zpow (L : ℕ) (z : ℤ) : ‖omega L ^ z‖ = 1 := by simp

/-- No bin is larger than the sum of the magnitudes. -/
theorem norm_dft_le (L : ℕ) (v : ℕ → ℂ) (k : ℕ) : ‖dft L v k‖ ≤ ∑ n ∈ Finset.range L, ‖v n‖ := by
  refine (norm_sum_le _ _).trans (le_of_eq (Finset.sum_congr rfl fun n _ => ?_))
  rw [norm_mul, norm_omega_zpow, mul_one]

theorem norm_idft_le (L : ℕ) (V : ℕ → ℂ) (n : ℕ) : ‖idft L V n‖ ≤ ∑ k ∈ Finset.range L, ‖V k‖ := by
  refine (norm_sum_le _ _).trans (le_of_eq (Finset.sum_congr rfl fun k _ => ?_))
  rw [norm_mul, norm_omega_zpow, mul_one]

theorem sumNorm_nonneg (v : List Sample) : 0 ≤ sumNorm v :=
  List.sum_nonneg (by simp)

/-- The sum over a sequence as a sum over its indices. -/
theorem sumNorm_eq_sum (v : List Sample) : ∑ n ∈ Finset.range v.length, ‖values v n‖ = sumNorm v := by
  induction v with
  | nil => simp [sumNorm]
  | cons c v ih =>
    rw [List.length_cons, Finset.sum_range_succ', sumNorm, List.map_cons, List.sum_cons]
    have h0 : values (c :: v) 0 = c.val := rfl
    have h : ∀ n, values (c :: v) (n + 1) = values v n := fun n => rfl
    simp only [h0, h, ih, sumNorm, add_comm]

theorem maxNorm_nonneg (v : List Sample) : 0 ≤ maxNorm v := by
  induction v with
  | nil => simp [maxNorm]
  | cons c v _ => exact le_max_of_le_left (norm_nonneg _)

/-- No entry is larger than the maximum. -/
theorem norm_values_le_maxNorm (v : List Sample) (k : ℕ) : ‖values v k‖ ≤ maxNorm v := by
  induction v generalizing k with
  | nil => simp [values, entry, maxNorm]
  | cons c v ih =>
    cases k with
    | zero => exact le_max_left _ _
    | succ k => exact (ih k).trans (le_max_right _ _)

/-- A reference profile bin is at most `1/L` times the sum of the magnitudes (00 R13). -/
theorem norm_refBuild_le {L : ℕ} {h : List Sample} (hL : h.length = L) (k : ℕ) :
    ‖refBuild L (values h) k‖ ≤ 1 / L * sumNorm h := by
  have h1 := norm_dft_le L (values h) k
  rw [← hL, sumNorm_eq_sum, hL] at h1
  simpa [refBuild] using mul_le_mul_of_nonneg_left h1 (by positivity : (0 : ℝ) ≤ 1 / L)

/-- A reference output sample is at most the bound's magnitude (00 R13). -/
theorem norm_refApply_le {N : ℕ} {w p : List Sample} (hw : w.length = 2 * N) (j : ℕ) :
    ‖refApply N (values w) (values p) j‖ ≤ (2 * N) * sumNorm w * maxNorm p := by
  refine (norm_idft_le _ _ _).trans ?_
  have h : ∀ k ∈ Finset.range (2 * N), ‖dft (2 * N) (values w) k * values p k‖ ≤ sumNorm w * maxNorm p := by
    intro k _
    rw [norm_mul]
    have h1 := norm_dft_le (2 * N) (values w) k
    rw [← hw, sumNorm_eq_sum, hw] at h1
    exact mul_le_mul h1 (norm_values_le_maxNorm p k) (norm_nonneg _) (sumNorm_nonneg w)
  refine (Finset.sum_le_sum h).trans (le_of_eq ?_)
  simp
  ring

theorem omega_two : omega 2 = -1 := by
  have h : (2 * Real.pi * Complex.I / (2 : ℕ) : ℂ) = Real.pi * Complex.I := by push_cast; ring
  rw [omega, h, Complex.exp_pi_mul_I]

/-- The profile of two coefficients at block size 1. -/
theorem refBuild_two (h : ℕ → ℂ) : refBuild 2 h 0 = (h 0 + h 1) / 2 ∧ refBuild 2 h 1 = (h 0 - h 1) / 2 := by
  constructor <;> simp [refBuild, dft, Finset.sum_range_succ, omega_two] <;> ring

/-- The output sample at block size 1. -/
theorem refApply_one (w p : ℕ → ℂ) :
    refApply 1 w p 0 = (w 0 + w 1) * p 0 - (w 0 - w 1) * p 1 := by
  simp [refApply, idft, dft, Finset.sum_range_succ, omega_two]; ring

/-- A sample whose real half is the least positive binary32 value, times a sign. -/
theorem val_least : (⟨0x00000001#32, 0x00000000#32⟩ : Sample).val = ((1 / 2 ^ 149 : ℝ) : ℂ) ∧
    (⟨0x80000001#32, 0x00000000#32⟩ : Sample).val = ((-(1 / 2 ^ 149) : ℝ) : ℂ) := by
  have h0 : f32Scaled 0x00000000#32 = 0 := by decide
  have h1 : f32Scaled 0x00000001#32 = 1 := by decide
  have h2 : f32Scaled 0x80000001#32 = -1 := by decide
  constructor <;> apply Complex.ext <;> simp only [Sample.val, f32, h0, h1, h2, Complex.ofReal_re, Complex.ofReal_im] <;>
    push_cast <;> ring

/-- `ACC` on all finite arguments holds only of accuracies of at least 1, because a reference may lie between two
neighbouring binary32 values near zero (log 15). -/
theorem Numerics.Acc.one_le {num : Numerics} {epsB epsA : ℝ} (acc : num.Acc epsB epsA) : 1 ≤ epsB ∧ 1 ≤ epsA := by
  obtain ⟨hp, hn⟩ := val_least
  obtain ⟨a, ha⟩ : ∃ a : ℝ, a = 1 / 2 ^ 149 := ⟨_, rfl⟩
  rw [← ha] at hp hn
  have ha0 : 0 < a := by rw [ha]; positivity
  have ha1 : a ≤ 1 / 4 := by rw [ha]; norm_num
  have hz : ∀ c : Sample, c.val.re = (f32Scaled c.re : ℝ) * a := fun c => by
    show f32 c.re = _
    rw [f32, ha]; ring
  clear ha
  constructor
  · have h := (acc.build 2 [⟨0x00000001#32, 0x00000000#32⟩, CZERO] rfl (by decide) 0 (by decide)).2
    rw [(refBuild_two _).1] at h
    simp only [values, entry, List.getD_cons_zero, List.getD_cons_succ, hp, val_CZERO, sumNorm, List.map_cons,
      List.map_nil, List.sum_cons, List.sum_nil, norm_zero, Complex.norm_real, Real.norm_eq_abs, abs_of_pos ha0] at h
    have h2 := (Complex.abs_re_le_norm _).trans h
    rw [Complex.sub_re, hz] at h2
    generalize f32Scaled (num.buildAt 2 _ 0).re = z at h2
    have e : ((((a : ℝ) : ℂ) + 0) / 2).re = a / 2 := by simp
    rw [e] at h2
    have h3 : a / 2 ≤ |(z : ℝ) * a - a / 2| := by
      rcases le_or_gt z 0 with hz0 | hz0
      · have : (z : ℝ) ≤ 0 := by exact_mod_cast hz0
        rw [abs_of_nonpos (by nlinarith)]; nlinarith
      · have : (1 : ℝ) ≤ z := by exact_mod_cast hz0
        rw [abs_of_nonneg (by nlinarith)]; nlinarith
    push_cast at h2
    by_contra hlt
    nlinarith
  · have h := (acc.apply 1 [⟨0x00000001#32, 0x00000000#32⟩, CZERO] [⟨0x00000001#32, 0x00000000#32⟩,
      ⟨0x80000001#32, 0x00000000#32⟩] rfl rfl (by decide) (by decide) 0 (by decide)).2
    rw [refApply_one] at h
    simp only [values, entry, List.getD_cons_zero, List.getD_cons_succ, hp, hn, val_CZERO, sumNorm, maxNorm,
      List.map_cons, List.map_nil, List.sum_cons, List.sum_nil, List.foldr_cons, List.foldr_nil, norm_zero,
      Complex.norm_real, Real.norm_eq_abs, abs_neg, abs_of_pos ha0] at h
    rw [max_eq_left ha0.le, max_self] at h
    have h2 := (Complex.abs_re_le_norm _).trans h
    rw [Complex.sub_re, hz] at h2
    generalize f32Scaled (num.applyAt 1 _ _ 0).re = z at h2
    have e : ((((a : ℝ) : ℂ) + 0) * ((a : ℝ) : ℂ) - (((a : ℝ) : ℂ) - 0) * ((-a : ℝ) : ℂ)).re = 2 * a ^ 2 := by
      simp; ring
    rw [e] at h2
    have h3 : 2 * a ^ 2 ≤ |(z : ℝ) * a - 2 * a ^ 2| := by
      rcases le_or_gt z 0 with hz0 | hz0
      · have : (z : ℝ) ≤ 0 := by exact_mod_cast hz0
        rw [abs_of_nonpos (by nlinarith)]; nlinarith
      · have h1 : (1 : ℝ) ≤ z := by exact_mod_cast hz0
        have h4 : a ≤ z * a := by nlinarith
        have h5 : 4 * a ^ 2 ≤ a := by
          have := mul_le_mul_of_nonneg_left ha1 ha0.le
          linarith [sq a]
        rw [abs_of_nonneg (by linarith)]; linarith
    push_cast at h2
    by_contra hlt
    nlinarith [mul_pos ha0 ha0]

end Sys2Proof
end

