-- ==== Sys2Proof/Tests/Slice0.lean ====
section
/-! SUPPORT. The model's own tests, and for every obligation with hypotheses a witness that meets them. Expected values
are from the tables of 95_test_vectors.md and 30_encoding.md, named at each test. -/

namespace Sys2Proof.Tests

open Sys2Proof.Machine

/-! ### Well-formedness and decoding -/

/-- 30 R79: the largest operand has an encoding, the next number has none. -/
theorem test_config_operand_range : Instr.WellFormed (.config 0xFFFFFF) ∧ ¬Instr.WellFormed (.config 0x1000000) := by
  decide

theorem test_build_operand_range : Instr.WellFormed (.build 0xFFFFFF) ∧ ¬Instr.WellFormed (.build 0x1000000) := by
  decide

/-- V-DEC-1, V-DEC-2. -/
theorem test_decode_nop : decode 0b00000000000000000000000000000000#32 = .ok .nop ∧
    decode 0x00000100#32 = .error .nonzeroImmediate := by decide

/-- V-DEC-3 and V-DEC-18, bit by bit. -/
theorem test_decode_config : decode 0b00000000000000000000001000000001#32 = .ok (.config 2) ∧
    decode 0b00000001000000000000000000000001#32 = .ok (.config 65536) := by decide

/-- V-DEC-5 and V-DEC-17, bit by bit: no sign extension. -/
theorem test_decode_build : decode 0b00000000000000000000001100000010#32 = .ok (.build 3) ∧
    decode 0b11111111111111111111111100000010#32 = .ok (.build 16777215) := by decide

/-- V-DEC-7, V-DEC-8. -/
theorem test_decode_restart : decode 0b00000000000000000000000000000011#32 = .ok .restart ∧
    decode 0b10000000000000000000000000000011#32 = .error .nonzeroImmediate := by decide

/-- V-DEC-9, V-DEC-10. -/
theorem test_decode_apply : decode 0b00000000000000000000000000000100#32 = .ok .apply ∧
    decode 0x00000104#32 = .error .nonzeroImmediate := by decide

/-- V-DEC-11, V-DEC-12. -/
theorem test_decode_setPassband : decode 0b00000000000000000000000000000101#32 = .ok .setPassband ∧
    decode 0x00000105#32 = .error .nonzeroImmediate := by decide

/-- V-DEC-13, V-PB-17. -/
theorem test_decode_getPassband : decode 0b00000000000000000000000000000110#32 = .ok .getPassband ∧
    decode 0x00000106#32 = .error .nonzeroImmediate := by decide

/-- V-DEC-14, V-DEC-15, V-DEC-16. -/
theorem test_decode_reserved : decode 0x00000007#32 = .error .reservedOpcode ∧
    decode 0x000000FF#32 = .error .reservedOpcode ∧ decode 0xFFFFFFFF#32 = .error .reservedOpcode := by decide

/-- 30 R79's example and R82. -/
theorem test_encode : encode (.config 512) = 0x00020001#32 ∧ encode (.build 513) = 0x00020102#32 := by decide

/-- The first step after `withFetchWord` at reset runs the word's command. -/
theorem test_fetch_from_reset :
    step (State.reset.withFetchWord 32 0x00000302) = exec (.build 3) (State.reset.withFetchWord 32 0x00000302) :=
  step_withFetchWord (by decide)

/-! ### Two small states -/

/-- The sample `x + 0i` of the vectors. -/
def real (w : Word) : Sample := ⟨w, 0x00000000#32⟩

/-- Block size 1, built from zero coefficients, in operation and idle; `FIRST` is 1. -/
def unit : State :=
  { regs :=
      { cmd := 0x00000000#32, result := 0x00000000#32, arg0 := 0x00000000#32, arg1 := 0x00000000#32
        res0 := 0x00000000#32, res1 := 0x00000000#32, blkSize := 1#32, fftLen := 2#32, nTaps := 1#32
        pbLo := Config.defLo, pbHi := Config.defHi }
    status := { busy := false, first := true, fatal := false, proto := false }
    mem :=
      { coef := zeros 2, profile := Config.num.build 2 (zeroPad 2 1 (zeros 2))
        work := [real 0x40400000#32, real 0x40800000#32], out := zeros 1 }
    initialising := false
    host := { script := [], received := [] }
    delay := 0
    draws := 0 }

/-- Block size 2, as in most vectors: `WORK = [3, 4, 5, 6]`, `OUT = [1, 2]`, `FIRST = 0`, `RESULT` an earlier `-4`. -/
def pair : State :=
  { unit with
    regs := { unit.regs with result := 0xFFFFFFFC#32, blkSize := 2#32, fftLen := 4#32, nTaps := 3#32 }
    status.first := false
    mem :=
      { coef := [real 0x3F800000#32, real 0x40000000#32, real 0x40400000#32], profile := zeros 4
        work := [real 0x40400000#32, real 0x40800000#32, real 0x40A00000#32, real 0x40C00000#32]
        out := [real 0x3F800000#32, real 0x40000000#32] } }

/-- The state with the command word in flight and the engine to move. -/
def running (w : Word) (s : State) : State := inFlight w s

/-- The state with accesses for the host to make. -/
def scripted (acts : List HostAct) (s : State) : State := { s with host.script := acts }

/-- The stopped block. -/
def stopped : State := { unit with status := { busy := false, first := true, fatal := true, proto := false } }

/-- The block during reset initialisation. -/
def resetting : State := assertReset unit

/-- The state of a next outcome, for tests on one field. -/
def after : Host.Outcome State Fault Refusal → State
  | .next t => t
  | _ => unit

/-! ### Commands -/

/-- V-NOP-1: `RESULT` back to 0, nothing else changes. -/
theorem test_nop : (after (exec .nop pair)).regs.result = 0#32 ∧ (after (exec .nop pair)).mem = pair.mem := ⟨rfl, rfl⟩

/-- V-CFG-2: the sizes after `CONFIG 1`, whatever the state before. -/
theorem test_config_one : (after (exec (.config 1) pair)).regs.blkSize = 1#32 ∧
    (after (exec (.config 1) pair)).regs.fftLen = 2#32 ∧ (after (exec (.config 1) pair)).regs.nTaps = 2#32 := by
  have h : validBlockSize 1 = true := (validBlockSize_iff 1).2 ⟨by decide, Config.nMax_pos⟩
  simp only [exec, execConfig, h]
  exact ⟨rfl, rfl, rfl⟩

/-- V-CFG-3, V-CFG-4: `CONFIG 3` and `CONFIG 0` are fatal, and `STATUS` reads `0x6` with `FIRST = 1` (V-FAT-1). -/
theorem test_config_fatal : (after (exec (.config 3) unit)).status.word = 0x00000006#32 ∧
    (after (exec (.config 0) unit)).status.word = 0x00000006#32 := by
  exact ⟨rfl, rfl⟩

/-- V-BLD-4, V-BLD-5: `-4`, and nothing else changes. -/
theorem test_build_rejects : (after (exec (.build 0) pair)).regs.result = 0xFFFFFFFC#32 ∧
    (after (exec (.build 4) pair)).regs.nTaps = 3#32 ∧ (after (exec (.build 4) pair)).mem = pair.mem := ⟨rfl, rfl, rfl⟩

/-- V-BLD-1, V-BLD-11: `BUILD 3` transforms the padded coefficients, and leaves `WORK`. -/
theorem test_build : (after (exec (.build 3) pair)).regs.nTaps = 3#32 ∧
    (after (exec (.build 3) pair)).mem.profile = Config.num.build 4
      [real 0x3F800000#32, real 0x40000000#32, real 0x40400000#32, CZERO] ∧
    (after (exec (.build 3) pair)).mem.work = pair.mem.work := ⟨rfl, rfl, rfl⟩

/-- V-RST-1. -/
theorem test_restart : (after (exec .restart pair)).mem.work = [CZERO, CZERO, real 0x40A00000#32, real 0x40C00000#32] ∧
    (after (exec .restart pair)).mem.out = [real 0x3F800000#32, real 0x40000000#32] ∧
    (after (exec .restart pair)).status.first = false := by decide

/-- 40 R95: the input half is copied onto the history half and stays; `NUM.apply` gets the whole buffer. -/
theorem test_apply_saves : (after (exec .apply pair)).mem.work =
      [real 0x40A00000#32, real 0x40C00000#32, real 0x40A00000#32, real 0x40C00000#32] ∧
    (after (exec .apply pair)).mem.out = Config.num.apply 2 pair.mem.work (zeros 4) := ⟨rfl, rfl⟩

/-- 40 R93: with `FIRST = 1` the transform sees a zero history, and `FIRST` is cleared. -/
theorem test_apply_first_call : (after (exec .apply unit)).mem.out = Config.num.apply 1 [CZERO, real 0x40800000#32]
      unit.mem.profile ∧ (after (exec .apply unit)).status.first = false := ⟨rfl, rfl⟩

/-- V-PB-12: the edges in force, bit for bit. -/
theorem test_getPassband (lo hi : Word) :
    (after (exec .getPassband { pair with regs.pbLo := lo, regs.pbHi := hi })).regs.res0 = lo ∧
    (after (exec .getPassband { pair with regs.pbLo := lo, regs.pbHi := hi })).regs.res1 = hi := ⟨rfl, rfl⟩

/-- 41 R106 example and V-PB-10, V-PB-11, at `FS = 48000`, `MIN_BW = 100`. -/
theorem test_passband_accepts : validPB 0x473B8000#32 0x42C80000#32 0x43960000#32 0x453B8000#32 = .ok ∧
    validPB 0x473B8000#32 0x42C80000#32 0xC53B8000#32 0xC3960000#32 = .ok ∧
    validPB 0x473B8000#32 0x42C80000#32 0x80000000#32 0x42C80000#32 = .ok := by decide

/-- 41 R106 corners: 300 to 400 and the band from `-FS/2` to `FS/2` pass; 300 to 399, 24001 and NaN do not (P3). -/
theorem test_passband_corners : validPB 0x473B8000#32 0x42C80000#32 0x43960000#32 0x43C80000#32 = .ok ∧
    validPB 0x473B8000#32 0x42C80000#32 0xC6BB8000#32 0x46BB8000#32 = .ok ∧
    validPB 0x473B8000#32 0x42C80000#32 0x43960000#32 0x43C78000#32 = .errClose ∧
    validPB 0x473B8000#32 0x42C80000#32 0x46BB8200#32 0x453B8000#32 = .errRange ∧
    validPB 0x473B8000#32 0x42C80000#32 0x7FC00000#32 0x43C78000#32 = .errRange := by decide

/-- P3: a NaN edge gives `-2` and the passband in force stays. -/
theorem test_setPassband_rejects :
    (after (exec .setPassband { pair with regs.arg0 := 0x7FC00000#32 })).regs.result = 0xFFFFFFFE#32 ∧
    (after (exec .setPassband { pair with regs.arg0 := 0x7FC00000#32 })).regs.pbLo = Config.defLo := by
  have h : validPB Config.fs Config.minBw 0x7FC00000#32 pair.regs.arg1 = .errRange := if_pos (by decide)
  have e : exec .setPassband { pair with regs.arg0 := 0x7FC00000#32 } =
      .next (finish .errRange { pair with regs.arg0 := 0x7FC00000#32 }) := by
    simp only [exec, execSetPassband]
    rw [h]; rfl
  rw [e]; exact ⟨rfl, rfl⟩

/-- The accepted edges become those in force (V-PB-1's shape, at the default edges, which 00 R5 makes valid). -/
theorem test_setPassband_accepts :
    (after (exec .setPassband { pair with regs.arg0 := Config.defLo, regs.arg1 := Config.defHi })).regs.nTaps = 3#32 ∧
    (after (exec .setPassband { pair with regs.arg0 := Config.defLo, regs.arg1 := Config.defHi })).mem.work
      = pair.mem.work := by
  simp only [exec, execSetPassband, Config.default_valid]; exact ⟨rfl, rfl⟩

/-! ### Host accesses -/

/-- V-PRO-1, V-PRO-5, V-PRO-6, V-PRO-8, V-PRO-9, V-PRO-10: each sets `PROTO`. -/
theorem test_read_faults : (memRead 0x02 4 pair).2.status.proto = true ∧ (memRead 0x38 4 pair).2.status.proto = true ∧
    (memRead 0x100018 4 pair).2.status.proto = true ∧ (memRead 0x400010 4 pair).2.status.proto = true ∧
    (memRead 0x500000 4 pair).2.status.proto = true ∧ (memRead 0x100010 2 pair).2.status.proto = true :=
  ⟨rfl, rfl, rfl, rfl, rfl, rfl⟩

/-- V-PRO-7: the last valid entry of COEF. -/
theorem test_read_last_coef : memRead 0x100010 4 pair = (0x40400000#32, pair) := rfl

/-- V-PRO-2, V-PRO-3, V-PRO-4: read-only locations. -/
theorem test_write_faults : memWrite 0x200000 4 0x3F800000#32 pair = raiseProto pair ∧
    memWrite 0x00 4 0#32 pair = raiseProto pair ∧ memWrite 0x08 4 0#32 pair = raiseProto pair := ⟨rfl, rfl, rfl⟩

/-- V-NOP-5, and a write to the imaginary half of `WORK[3]` (20 R47). -/
theorem test_write_lands : (memWrite 0x10 4 0x12345678#32 pair).regs.arg0 = 0x12345678#32 ∧
    (memWrite 0x30001C 4 0x3F800000#32 pair).mem.work[3]? = some ⟨0x40C00000#32, 0x3F800000#32⟩ := ⟨rfl, rfl⟩

/-- V-FAT-1 to V-FAT-3. -/
theorem test_fatal_accesses : memRead 0x08 4 stopped = (0x00000006#32, stopped) ∧
    memRead 0x00 4 stopped = (0x4F4C5331#32, stopped) ∧ memWrite 0x04 4 0x00000201#32 stopped = stopped :=
  ⟨rfl, rfl, rfl⟩

/-- V-RES-1, V-RES-3: `STATUS` during initialisation, after a fault there too, and the fault surviving it. -/
theorem test_reset_status : resetting.statusWord = 0x00000001#32 ∧ (finishReset resetting).statusWord = 0x00000002#32 ∧
    (memRead 0x20 4 resetting).2.statusWord = 0x00000001#32 ∧
    (finishReset (memRead 0x20 4 resetting).2).statusWord = 0x0000000A#32 := ⟨rfl, rfl, rfl, rfl⟩

/-- 30 R81: `cmd CONFIG 2` and the second sample of a two-sample `block`, as P1 expands them. -/
theorem test_host_syntax : HostSyntax.cmd (.config 2) = [.write 0x04 4 0x00000201#32, .wait] ∧
    HostSyntax.wrc .work 3 CZERO = [.write 0x300018 4 0#32, .write 0x30001C 4 0#32] := by decide

/-- 20 R49: the sign of a word is in the last byte. -/
theorem test_little_endian : byteOf 0x4F4C5331#32 0 = 0x31#8 ∧ byteOf 0x4F4C5331#32 3 = 0x4F#8 := by decide

/-! ### Numbers -/

/-- The value of a word whose scaled integer is `z * 2^149`. -/
theorem f32_of_scaled {w : Word} {z : ℤ} (h : f32Scaled w = z * 2 ^ 149) : f32 w = z := by
  rw [f32, h, Int.cast_mul, Int.cast_pow, Int.cast_ofNat]
  exact mul_div_cancel_right₀ (z : ℝ) (by positivity : (2 : ℝ) ^ 149 ≠ 0)

/-- The encodings 48000, -3000 and 0.5 of 95 section 0. -/
theorem test_f32 : f32 0x473B8000#32 = 48000 ∧ f32 0xC53B8000#32 = -3000 ∧ f32 0x3F000000#32 = 1 / 2 := by
  refine ⟨?_, ?_, ?_⟩
  · simpa using f32_of_scaled (w := 0x473B8000#32) (z := 48000) (by decide)
  · simpa using f32_of_scaled (w := 0xC53B8000#32) (z := -3000) (by decide)
  · have h : f32Scaled 0x3F000000#32 = 2 ^ 148 := by decide
    rw [f32, h]; norm_num

/-- V-BLD-6's first bin: `N = 1`, `COEF = [1, 1]`, so `PROFILE[0] = 1` in the exact model. -/
theorem test_refBuild : refBuild 2 (fun _ => 1) 0 = 1 := by
  simp [refBuild, dft]

/-! ### Witnesses: for each obligation with hypotheses, states and operands that meet them -/

theorem unit_sound : unit.Sound where
  block_pow2 := by decide
  block_le := Config.nMax_pos
  fft_eq := by decide
  taps_pos := by decide
  taps_le := by decide
  sizes := ⟨rfl, by simp [unit, State.blockSize], rfl, rfl⟩
  profile_built := ⟨zeros 2, rfl, rfl⟩
  passband := Config.default_valid
  result := by decide

theorem unit_inv : unit.Inv := ⟨fun _ => unit_sound, fun h => (by cases h), fun h => (by cases h)⟩

theorem running_turn (w : Word) (s : State) : EngineTurn (running w s) := ⟨rfl, rfl⟩

/-- The default passband, in the operand registers: the one every implementation accepts (00 R5). -/
def defaultEdges : State := { unit with regs.arg0 := Config.defLo, regs.arg1 := Config.defHi }

/-- A NaN low edge. -/
def nanEdge : State := { unit with regs.arg0 := 0x7FC00000#32 }

theorem defaultEdges_valid :
    validPB Config.fs Config.minBw defaultEdges.regs.arg0 defaultEdges.regs.arg1 = .ok := Config.default_valid

theorem nanEdge_range : validPB Config.fs Config.minBw nanEdge.regs.arg0 nanEdge.regs.arg1 = .errRange :=
  if_pos (by decide)

/-- Two zero edges are in range and closer than any positive threshold. -/
theorem zeroEdges_close : validPB Config.fs Config.minBw unit.regs.arg0 unit.regs.arg1 = .errClose := by
  have h1 := Config.fs_pos
  have h2 := Config.minBw_pos
  have h0 : f32Scaled 0x00000000#32 = 0 := by decide
  show validPB Config.fs Config.minBw 0x00000000#32 0x00000000#32 = .errClose
  unfold validPB
  rw [if_neg (by decide), h0, if_neg (by simp; omega), if_pos (by simpa using h2)]

theorem sound_of_args {s : State} (h : s.Sound) (a b : Word) :
    ({ s with regs.arg0 := a, regs.arg1 := b } : State).Sound :=
  ⟨h.block_pow2, h.block_le, h.fft_eq, h.taps_pos, h.taps_le, h.sizes, h.profile_built, h.passband, h.result⟩

theorem witness_DecodeInvertsEncode : Instr.WellFormed (.config 0) ∧ Instr.WellFormed (.build 0xFFFFFF) ∧
    Instr.WellFormed .apply := by decide

theorem witness_EncodeInvertsDecode : decode 0x00020102#32 = .ok (.build 513) := by decide

/-- Both ends of the reserved range. -/
theorem witness_WordSelectsOpcodeMapRow : 7 ≤ ((0x00000007#32).extractLsb' 0 8).toNat ∧
    7 ≤ ((0x000000FF#32).extractLsb' 0 8).toNat := by decide

theorem witness_StepRunsDecodedCommand : EngineTurn (running 0x00000004#32 unit) ∧
    decode (running 0x00000004#32 unit).regs.cmd = .ok .apply := ⟨running_turn _ _, by decide⟩

/-- Idle, and while a command is in flight with its time not yet over. -/
theorem witness_HostAccessesInOrder : HostTurn (scripted [.read 0x20 4] unit) ∧
    HostTurn { scripted [.wait] (running 0#32 unit) with delay := 1 } := by decide

/-- The last offset of the aperture and the first beyond it; `STATUS` with bit 0 set and clear. -/
theorem witness_HostAccessAnswers : 0xFFFFFF < 0x1000000 ∧ 0x1000000 ≤ 0x1000000 ∧
    (memRead 0x08 4 (running 0#32 unit)).1.getLsbD 0 = true ∧ (memRead 0x08 4 unit).1.getLsbD 0 = false := by decide

/-- A reserved opcode at both ends, and a nonzero `IMM24` of each command that takes none; then `CONFIG`, `BUILD`. -/
theorem witness_IllegalWordOnlyReports :
    (∀ w ∈ [0x00000007#32, 0xFFFFFFFF#32], EngineTurn (running w unit) ∧
      7 ≤ ((running w unit).regs.cmd.extractLsb' 0 8).toNat) ∧
    (∀ w ∈ [0x00000100#32, 0x00000103#32, 0x00000104#32, 0x00000105#32, 0x80000006#32], EngineTurn (running w unit) ∧
      (running w unit).regs.cmd.extractLsb' 8 24 ≠ 0#24 ∧ (((running w unit).regs.cmd.extractLsb' 0 8).toNat = 0 ∨
        3 ≤ ((running w unit).regs.cmd.extractLsb' 0 8).toNat)) ∧
    ((running 0x00000301#32 unit).regs.cmd.extractLsb' 0 8).toNat = 1 ∧
    ((running 0x00000402#32 unit).regs.cmd.extractLsb' 0 8).toNat = 2 := by
  refine ⟨fun w hw => ⟨running_turn _ _, ?_⟩, fun w hw => ⟨running_turn _ _, ?_⟩, by decide, by decide⟩
  all_goals simp only [List.mem_cons, List.not_mem_nil, or_false] at hw
  · rcases hw with rfl | rfl <;> decide
  · rcases hw with rfl | rfl | rfl | rfl | rfl <;> decide

theorem witness_CommandLifeCycle : Idle unit ∧ (unit.initialising = false ∧ engineReady unit = false ∧
      unit.host.script = [] ∧ unit.status.fatal = false) ∧
    (stopped.initialising = false ∧ engineReady stopped = false ∧ stopped.host.script = [] ∧
      stopped.status.fatal = true) ∧
    (scripted [.wait] unit).host.script = .wait :: [] ∧ EngineTurn (running 0x00000201#32 unit) := by decide

theorem witness_WaitReachesEngineTurn :
    engineReady { scripted [.wait, .read 0x0C 4] (running 0x00000004#32 unit) with delay := 3 } = true ∧
    ({ scripted [.wait, .read 0x0C 4] (running 0x00000004#32 unit) with delay := 3 } : State).host.script
      = .wait :: [.read 0x0C 4] := ⟨rfl, rfl⟩

/-- Of the words at one opcode: `IMM24` zero and not zero. -/
theorem witness_EncodedWithoutOperand : ∀ opc ∈ [0x00#8, 0x03#8, 0x04#8, 0x05#8, 0x06#8],
    (∃ w : Word, w.extractLsb' 0 8 = opc ∧ w.extractLsb' 8 24 = 0#24) ∧
    (∃ w : Word, w.extractLsb' 0 8 = opc ∧ w.extractLsb' 8 24 ≠ 0#24) := by
  intro opc h
  simp only [List.mem_cons, List.not_mem_nil, or_false] at h
  rcases h with rfl | rfl | rfl | rfl | rfl
  · exact ⟨⟨0x00000000#32, by decide⟩, ⟨0x00000100#32, by decide⟩⟩
  · exact ⟨⟨0x00000003#32, by decide⟩, ⟨0x80000003#32, by decide⟩⟩
  · exact ⟨⟨0x00000004#32, by decide⟩, ⟨0x00000104#32, by decide⟩⟩
  · exact ⟨⟨0x00000005#32, by decide⟩, ⟨0x00000105#32, by decide⟩⟩
  · exact ⟨⟨0x00000006#32, by decide⟩, ⟨0x00000106#32, by decide⟩⟩

theorem witness_EncodedWithOperand : (0x00000301#32).extractLsb' 0 8 = 0x01#8 ∧
    (0xFFFFFF02#32).extractLsb' 0 8 = 0x02#8 := by decide

/-- The least and the greatest block size; then 0, 3 and the first power of two beyond the greatest. -/
theorem witness_ConfigRebuildsOrIsFatal : ((∃ k, 1 = 2 ^ k) ∧ 1 ≤ Config.nMax) ∧
    ((∃ k, Config.nMax = 2 ^ k) ∧ Config.nMax ≤ Config.nMax) ∧ ¬((∃ k, 0 = 2 ^ k) ∧ 0 ≤ Config.nMax) ∧
    ¬((∃ k, 3 = 2 ^ k) ∧ 3 ≤ Config.nMax) ∧
    ¬((∃ k, 2 * Config.nMax = 2 ^ k) ∧ 2 * Config.nMax ≤ Config.nMax) := by
  have h := Config.nMax_pos
  refine ⟨⟨⟨0, rfl⟩, h⟩, ⟨⟨_, rfl⟩, le_refl _⟩, ?_, ?_, fun hc => by omega⟩
  · rintro ⟨⟨k, hk⟩, -⟩; have := Nat.two_pow_pos k; omega
  · intro hc; rw [← isPow2_iff] at hc; exact absurd hc.1 (by decide)

/-- The ends of the accepted range, and the numbers just outside it. -/
theorem witness_BuildComputesProfile : unit.Sound ∧ (1 ≤ 1 ∧ 1 ≤ unit.regs.blkSize.toNat + 1) ∧
    (1 ≤ 2 ∧ 2 ≤ unit.regs.blkSize.toNat + 1) ∧ (0 = 0 ∨ unit.regs.blkSize.toNat + 1 < 0) ∧
    (3 = 0 ∨ unit.regs.blkSize.toNat + 1 < 3) := ⟨unit_sound, by decide⟩

theorem witness_BuildKeepsHistory : ∃ t u, unit.Sound ∧ exec (.build 1) unit = .next t ∧ exec .apply t = .next u :=
  ⟨_, _, unit_sound, rfl, rfl⟩

theorem witness_RestartZeroesHistory : ∃ t u v, exec .restart pair = .next t ∧ exec .apply t = .next u ∧
    exec .apply { t with status.first := true } = .next v := ⟨_, _, _, rfl, rfl, rfl⟩

/-- `FIRST` is 1, and 0. -/
theorem witness_ApplyFiltersAndSaves : unit.Sound ∧ ({ unit with status.first := false } : State).Sound :=
  ⟨unit_sound, unit_sound.block_pow2, unit_sound.block_le, unit_sound.fft_eq, unit_sound.taps_pos, unit_sound.taps_le,
    unit_sound.sizes, unit_sound.profile_built, unit_sound.passband, unit_sound.result⟩

/-- Two states that differ in COEF. -/
theorem witness_ApplyReadsOnlyItsOperands : ∃ t t',
    pair.mem.coef ≠ ({ pair with mem.coef := zeros 3 } : State).mem.coef ∧
    pair.regs.blkSize = ({ pair with mem.coef := zeros 3 } : State).regs.blkSize ∧
    pair.status.first = ({ pair with mem.coef := zeros 3 } : State).status.first ∧
    pair.mem.work = ({ pair with mem.coef := zeros 3 } : State).mem.work ∧
    pair.mem.profile = ({ pair with mem.coef := zeros 3 } : State).mem.profile ∧
    exec .apply pair = .next t ∧ exec .apply { pair with mem.coef := zeros 3 } = .next t' :=
  ⟨_, _, by decide, rfl, rfl, rfl, rfl, rfl, rfl⟩

theorem witness_SetPassbandDesignsOrRejects :
    (defaultEdges.Sound ∧ validPB Config.fs Config.minBw defaultEdges.regs.arg0 defaultEdges.regs.arg1 = .ok) ∧
    (nanEdge.Sound ∧ validPB Config.fs Config.minBw nanEdge.regs.arg0 nanEdge.regs.arg1 = .errRange) ∧
    (unit.Sound ∧ validPB Config.fs Config.minBw unit.regs.arg0 unit.regs.arg1 = .errClose) :=
  ⟨⟨sound_of_args unit_sound _ _, defaultEdges_valid⟩, ⟨sound_of_args unit_sound _ _, nanEdge_range⟩,
    unit_sound, zeroEdges_close⟩

/-- The least and the greatest exponent field of a normal value, a subnormal, and an infinity. -/
theorem witness_FloatValueIsBinary32 :
    (1 ≤ ((0x00800000#32).extractLsb' 23 8).toNat ∧ ((0x00800000#32).extractLsb' 23 8).toNat ≤ 254) ∧
    (1 ≤ ((0xFF7FFFFF#32).extractLsb' 23 8).toNat ∧ ((0xFF7FFFFF#32).extractLsb' 23 8).toNat ≤ 254) ∧
    ((0x807FFFFF#32).extractLsb' 23 8).toNat = 0 ∧ ((0x7F800000#32).extractLsb' 23 8).toNat = 255 := by decide

/-- At 48000 Hz and a threshold of 100 Hz: NaN, an edge just above 24000, edges at `-FS/2` and `FS/2`, a width below
the threshold and a width equal to it. -/
theorem witness_PassbandValidationIsExact :
    (isFinite 0x473B8000#32 = true ∧ isFinite 0x42C80000#32 = true) ∧
    (isFinite 0x7FC00000#32 = false ∧ isFinite 0x7F800000#32 = false) ∧
    (isFinite 0x46BB8200#32 = true ∧ f32 0x473B8000#32 / 2 < |f32 0x46BB8200#32|) ∧
    (isFinite 0xC6BB8000#32 = true ∧ |f32 0xC6BB8000#32| ≤ f32 0x473B8000#32 / 2 ∧
      |f32 0x46BB8000#32| ≤ f32 0x473B8000#32 / 2 ∧ f32 0x42C80000#32 ≤ f32 0x46BB8000#32 - f32 0xC6BB8000#32) ∧
    (|f32 0x43960000#32| ≤ f32 0x473B8000#32 / 2 ∧ |f32 0x43C78000#32| ≤ f32 0x473B8000#32 / 2 ∧
      f32 0x43C78000#32 - f32 0x43960000#32 < f32 0x42C80000#32) ∧
    f32 0x42C80000#32 ≤ f32 0x43C80000#32 - f32 0x43960000#32 := by
  rw [f32_of_scaled (w := 0x473B8000#32) (z := 48000) (by decide), f32_of_scaled (w := 0x42C80000#32) (z := 100) (by decide),
    f32_of_scaled (w := 0x46BB8200#32) (z := 24001) (by decide), f32_of_scaled (w := 0xC6BB8000#32) (z := -24000) (by decide),
    f32_of_scaled (w := 0x46BB8000#32) (z := 24000) (by decide), f32_of_scaled (w := 0x43960000#32) (z := 300) (by decide),
    f32_of_scaled (w := 0x43C78000#32) (z := 399) (by decide), f32_of_scaled (w := 0x43C80000#32) (z := 400) (by decide)]
  norm_num [show isFinite 0x473B8000#32 = true by decide, show isFinite 0x42C80000#32 = true by decide,
    show isFinite 0x7FC00000#32 = false by decide, show isFinite 0x7F800000#32 = false by decide,
    show isFinite 0x46BB8200#32 = true by decide, show isFinite 0xC6BB8000#32 = true by decide, abs_of_nonneg]

theorem witness_GetPassbandReturnsEdgesInForce :
    (∃ t u, (∃ k, 1 = 2 ^ k) ∧ 1 ≤ Config.nMax ∧ exec (.config 1) unit = .next t ∧ exec .getPassband t = .next u) ∧
    (∃ u, exec .getPassband (finishReset resetting) = .next u) ∧
    (∃ t u, validPB Config.fs Config.minBw nanEdge.regs.arg0 nanEdge.regs.arg1 ≠ .ok ∧
      exec .setPassband nanEdge = .next t ∧ exec .getPassband t = .next u) ∧
    (∃ t u, exec (.build 2) unit = .next t ∧ exec .getPassband t = .next u) ∧
    (∃ t u, validPB Config.fs Config.minBw defaultEdges.regs.arg0 defaultEdges.regs.arg1 = .ok ∧
      exec .setPassband defaultEdges = .next t ∧ exec .getPassband t = .next u) :=
  ⟨⟨_, _, ⟨0, rfl⟩, Config.nMax_pos, rfl, rfl⟩, ⟨_, rfl⟩, ⟨_, _, by rw [nanEdge_range]; decide, rfl, rfl⟩,
    ⟨_, _, rfl, rfl⟩, ⟨_, _, defaultEdges_valid, rfl, rfl⟩⟩

theorem witness_FrameOfCommandsThatStoreNothing : (∃ t, exec .nop unit = .next t) ∧ ∃ t, exec .getPassband unit = .next t :=
  ⟨⟨_, rfl⟩, _, rfl⟩

/-- Accepted and rejected. -/
theorem witness_FrameOfBuild : (∃ t, unit.Sound ∧ exec (.build 2) unit = .next t) ∧
    ∃ t, unit.Sound ∧ exec (.build 3) unit = .next t := ⟨⟨_, unit_sound, rfl⟩, _, unit_sound, rfl⟩

/-- The last byte of the history and the first byte after it are in and out of the stored range. -/
theorem witness_FrameOfRestart : (∃ t, exec .restart pair = .next t) ∧
    (0x300000 ≤ 0x30000F ∧ 0x30000F < 0x300000 + 8 * pair.blockSize) ∧
    ¬(0x300000 ≤ 0x300010 ∧ 0x300010 < 0x300000 + 8 * pair.blockSize) := ⟨⟨_, rfl⟩, by decide⟩

theorem witness_FrameOfApply : (∃ t, exec .apply pair = .next t) ∧
    ¬(0x400000 ≤ 0x3FFFFF ∧ 0x3FFFFF < 0x400000 + 8 * pair.blockSize) := ⟨⟨_, rfl⟩, by decide⟩

theorem witness_FrameOfSetPassband : (∃ t, defaultEdges.Sound ∧ exec .setPassband defaultEdges = .next t) ∧
    ∃ t, nanEdge.Sound ∧ exec .setPassband nanEdge = .next t :=
  ⟨⟨_, sound_of_args unit_sound _ _, rfl⟩, _, sound_of_args unit_sound _ _, rfl⟩

/-- An illegal word, `BUILD 0`. -/
theorem witness_RejectionIsAtomic : ∀ w ∈ [0x00000007#32, 0x00000002#32], ∃ t, EngineTurn (running w unit) ∧
    step (running w unit) = .next t ∧ t.status.fatal = false ∧ t.regs.result.toInt < 0 := by
  intro w hw
  simp only [List.mem_cons, List.not_mem_nil, or_false] at hw
  rcases hw with rfl | rfl <;> exact ⟨_, running_turn _ _, rfl, rfl, by decide⟩

/-- A run to each of the five codes. -/
theorem witness_ResultCodeHasItsCause :
    (∃ t, EngineTurn (running 0#32 unit) ∧ step (running 0#32 unit) = .next t ∧ t.status.fatal = false ∧
      t.regs.result = 0#32) ∧
    (∃ t, step (running 0x00000104#32 unit) = .next t ∧ t.status.fatal = false ∧ t.regs.result = 0xFFFFFFFF#32) ∧
    (∃ t, step (running 0x00000005#32 nanEdge) = .next t ∧ t.status.fatal = false ∧ t.regs.result = 0xFFFFFFFE#32) ∧
    (∃ t, step (running 0x00000005#32 unit) = .next t ∧ t.status.fatal = false ∧ t.regs.result = 0xFFFFFFFD#32) ∧
    (∃ t, step (running 0x00000302#32 unit) = .next t ∧ t.status.fatal = false ∧ t.regs.result = 0xFFFFFFFC#32) := by
  have h1 : step (running 0x00000005#32 nanEdge) = .next (finish .errRange (running 0x00000005#32 nanEdge)) := by
    show exec .setPassband (running 0x00000005#32 nanEdge) = _
    simp only [exec, execSetPassband]
    rw [show validPB Config.fs Config.minBw (running 0x00000005#32 nanEdge).regs.arg0
      (running 0x00000005#32 nanEdge).regs.arg1 = .errRange from nanEdge_range]; rfl
  have h2 : step (running 0x00000005#32 unit) = .next (finish .errClose (running 0x00000005#32 unit)) := by
    show exec .setPassband (running 0x00000005#32 unit) = _
    simp only [exec, execSetPassband]
    rw [show validPB Config.fs Config.minBw (running 0x00000005#32 unit).regs.arg0
      (running 0x00000005#32 unit).regs.arg1 = .errClose from zeroEdges_close]; rfl
  exact ⟨⟨_, running_turn _ _, rfl, rfl, rfl⟩, ⟨_, rfl, rfl, by decide⟩, ⟨_, h1, rfl, by decide⟩, ⟨_, h2, rfl, by decide⟩,
    ⟨_, rfl, rfl, by decide⟩⟩

/-- A step that stops the block and one that does not. -/
theorem witness_OnlyInvalidConfigIsFatal :
    (∃ t, (running 0x00000001#32 unit).status.fatal = false ∧ step (running 0x00000001#32 unit) = .next t ∧
      t.status.fatal = true) ∧
    ∃ t, unit.status.fatal = false ∧ step unit = .next t ∧ t.status.fatal = false :=
  ⟨⟨_, rfl, rfl, rfl⟩, _, rfl, rfl, rfl⟩

/-- A read, a write and the reset of a stopped block. -/
theorem witness_FatalBlockOnlyResets : stopped.status.fatal = true ∧ stopped.initialising = false ∧
    (∃ t, step (scripted [.read 0x0C 4] stopped) = .next t) ∧
    (∃ t, step (scripted [.write 0x04 4 0#32] stopped) = .next t) ∧
    (∃ t, step (scripted [.powerOnReset] stopped) = .next t) := ⟨rfl, rfl, ⟨_, rfl⟩, ⟨_, rfl⟩, _, rfl⟩

/-- A step, a second fault while busy and a second fault by width, a command. -/
theorem witness_ProtoIsSticky : (raiseProto unit).status.proto = true ∧ (∃ t, step (raiseProto unit) = .next t) ∧
    (raiseProto unit).status.fatal = false ∧ (raiseProto (running 0#32 unit)).status.busy = true ∧ 2 ≠ 4 ∧
    (∃ t, exec .apply unit = .next t) := ⟨rfl, ⟨_, rfl⟩, rfl, rfl, by decide, _, rfl⟩

theorem witness_FirstFlagRule :
    (∃ t, exec .apply pair = .next t ∧ t.status.fatal = false) ∧
    (∃ t, unit.Sound ∧ unit.status.first = true ∧ exec .apply unit = .next t) ∧
    (∃ t, blockTurn { resetting with delay := 0 } = true ∧ ({ resetting with delay := 0 } : State).initialising = true ∧
      step { resetting with delay := 0 } = .next t) ∧
    (∃ t, (running 0x00000004#32 unit).initialising = false ∧ t.initialising = false ∧
      step (running 0x00000004#32 unit) = .next t ∧ t.status.first ≠ (running 0x00000004#32 unit).status.first) :=
  ⟨⟨_, rfl, rfl⟩, ⟨_, unit_sound, rfl, rfl⟩, ⟨_, rfl, rfl, rfl⟩, _, rfl, rfl, rfl, by decide⟩

/-- Host writes that change COEF, WORK and OUT, and commands that change WORK. -/
theorem witness_ElementsChangeOnlyByTheirWriters_memories :
    (∃ t, t.Operational ∧ step (scripted [.write 0x100000 4 0x3F800000#32] unit) = .next t ∧ t.mem.coef ≠ unit.mem.coef) ∧
    (∃ t, t.Operational ∧ step (scripted [.write 0x30000C 4 0x3F800000#32] unit) = .next t ∧ t.mem.work ≠ unit.mem.work) ∧
    (∃ t, t.Operational ∧ step (scripted [.write 0x400004 4 0x3F800000#32] unit) = .next t ∧ t.mem.out ≠ unit.mem.out) ∧
    (∃ t, t.Operational ∧ step (running 0x00000004#32 pair) = .next t ∧ t.mem.work ≠ pair.mem.work) ∧
    (∃ t, t.Operational ∧ step (running 0x00000003#32 pair) = .next t ∧ t.mem.work ≠ pair.mem.work) ∧
    (∃ t, t.Operational ∧ step (running 0x00000101#32 pair) = .next t ∧ t.mem.out ≠ pair.mem.out ∧
      t.mem.coef ≠ pair.mem.coef) := by
  have h : step (running 0x00000101#32 pair) = .next (finish .ok (rebuild 1 (running 0x00000101#32 pair))) := by
    show exec (.config 1) _ = _
    simp only [exec, execConfig, (validBlockSize_iff 1).2 ⟨by decide, Config.nMax_pos⟩, if_true]
  refine ⟨⟨_, ⟨rfl, rfl⟩, rfl, by decide⟩, ⟨_, ⟨rfl, rfl⟩, rfl, by decide⟩, ⟨_, ⟨rfl, rfl⟩, rfl, by decide⟩,
    ⟨_, ⟨rfl, rfl⟩, rfl, by decide⟩, ⟨_, ⟨rfl, rfl⟩, rfl, by decide⟩, ⟨_, ⟨rfl, rfl⟩, h, by decide, fun hc => ?_⟩⟩
  exact absurd (congrArg List.length hc) (by simp [rebuild, pair])

/-- Steps that change the sizes and `NTAPS`, `RES0`, `RESULT`, and `CMD`, `ARG0`, `ARG1`. -/
theorem witness_ElementsChangeOnlyByTheirWriters :
    (∃ t, t.Operational ∧ step (running 0x00000101#32 pair) = .next t ∧ t.regs.blkSize ≠ pair.regs.blkSize ∧
      t.regs.nTaps ≠ pair.regs.nTaps) ∧
    (∃ t, t.Operational ∧ step (running 0x00000006#32 { unit with regs.pbLo := 1#32 }) = .next t ∧
      t.regs.res0 ≠ unit.regs.res0) ∧
    (∃ t, t.Operational ∧ step (running 0x00000000#32 pair) = .next t ∧ t.regs.result ≠ pair.regs.result) ∧
    (∃ t, t.Operational ∧ step (running 0x00000005#32 { defaultEdges with regs.pbLo := 0x7FC00000#32 }) = .next t ∧
      t.regs.pbLo ≠ 0x7FC00000#32) ∧
    (∀ a ∈ [0x04, 0x10, 0x14], ∃ t, t.Operational ∧ step (scripted [.write a 4 0x12345678#32] unit) = .next t ∧
      t.regs ≠ unit.regs) := by
  have h : step (running 0x00000101#32 pair) = .next (finish .ok (rebuild 1 (running 0x00000101#32 pair))) := by
    show exec (.config 1) _ = _
    simp only [exec, execConfig, (validBlockSize_iff 1).2 ⟨by decide, Config.nMax_pos⟩, if_true]
  have h' : step (running 0x00000005#32 { defaultEdges with regs.pbLo := 0x7FC00000#32 }) = .next (finish .ok
      (setPassband Config.defLo Config.defHi (running 0x00000005#32 { defaultEdges with regs.pbLo := 0x7FC00000#32 }))) := by
    show exec .setPassband _ = _
    simp only [exec, execSetPassband]
    rw [if_pos (show validPB Config.fs Config.minBw
      (running 0x00000005#32 { defaultEdges with regs.pbLo := 0x7FC00000#32 }).regs.arg0
      (running 0x00000005#32 { defaultEdges with regs.pbLo := 0x7FC00000#32 }).regs.arg1 = .ok from defaultEdges_valid)]
    rfl
  have hn : Config.defLo ≠ 0x7FC00000#32 := by
    intro hc
    have := Config.default_valid
    rw [hc, show validPB Config.fs Config.minBw 0x7FC00000#32 Config.defHi = .errRange from
      if_pos (.inl (by decide))] at this
    cases this
  refine ⟨⟨_, ⟨rfl, rfl⟩, h, by decide, by decide⟩, ⟨_, ⟨rfl, rfl⟩, rfl, by decide⟩, ⟨_, ⟨rfl, rfl⟩, rfl, by decide⟩,
    ⟨_, ⟨rfl, rfl⟩, h', hn⟩, ?_⟩
  intro a ha
  simp only [List.mem_cons, List.not_mem_nil, or_false] at ha
  rcases ha with rfl | rfl | rfl
  · exact ⟨_, ⟨rfl, rfl⟩, rfl, fun hc => absurd (congrArg Regs.cmd hc) (by decide)⟩
  · exact ⟨_, ⟨rfl, rfl⟩, rfl, fun hc => absurd (congrArg Regs.arg0 hc) (by decide)⟩
  · exact ⟨_, ⟨rfl, rfl⟩, rfl, fun hc => absurd (congrArg Regs.arg1 hc) (by decide)⟩

/-- An operational state, one during initialisation and a stopped one, each with a step. -/
theorem witness_EveryStepKeepsInv : (∃ t, unit.Inv ∧ step unit = .next t) ∧
    (∃ t, ({ resetting with delay := 0 } : State).Inv ∧ step { resetting with delay := 0 } = .next t) ∧
    (∃ t, (scripted [.powerOnReset] stopped).Inv ∧ step (scripted [.powerOnReset] stopped) = .next t) :=
  ⟨⟨_, unit_inv, rfl⟩, ⟨_, ⟨fun h => (by cases h.2), fun _ => ⟨rfl, rfl, rfl⟩, fun h => (by cases h)⟩, rfl⟩,
    _, ⟨fun h => (by cases h.1), fun h => (by cases h), fun _ => ⟨rfl, rfl⟩⟩, rfl⟩

theorem witness_BusyAccessIsFault : (running 0#32 unit).status.fatal = false ∧ (running 0#32 unit).status.busy = true ∧
    ¬(4 = 4 ∧ (0x0C = 0x00 ∨ 0x0C = 0x08)) ∧ ¬(2 = 4 ∧ (0x08 = 0x00 ∨ 0x08 = 0x08)) := by decide

/-- Wrong width alone, misaligned alone. -/
theorem witness_MisalignedOrWrongWidthIsFault : unit.status.fatal = false ∧ (2 ≠ 4 ∨ 0x10 % 4 ≠ 0) ∧
    (4 ≠ 4 ∨ 0x12 % 4 ≠ 0) := by decide

theorem witness_ReadOnlyWriteIsFault : Idle unit ∧ 0x34 % 4 = 0 ∧ (0x2FFFFC % 4 = 0 ∧ 0x200000 ≤ 0x2FFFFC ∧
    0x2FFFFC < 0x300000) := by decide

/-- The ends of the three ranges. -/
theorem witness_UnmappedAccessIsFault : Idle unit ∧ ∀ a ∈ [0x38, 0xFC, 0x100, 0xFFFFC, 0x500000, 0xFFFFFC], a % 4 = 0 ∧
    ((0x38 ≤ a ∧ a < 0x100) ∨ (0x100 ≤ a ∧ a < 0x100000) ∨ (0x500000 ≤ a ∧ a < 0x1000000)) := by decide

/-- The last entry and the first beyond, and the last of the span. -/
theorem witness_AccessBeyondCurrentSizeIsFault : Idle pair ∧
    (0x100000 = 0x100000 ∧ 3 = pair.regs.blkSize.toNat + 1) ∧ (0x200000 = 0x200000 ∧ 4 = 2 * pair.regs.blkSize.toNat) ∧
    (0x400000 = 0x400000 ∧ 2 = pair.regs.blkSize.toNat) ∧ (3 ≤ 3 ∧ 2 < 3 ∧ 3 < 2 ^ 17) ∧ 4 ≤ 131071 ∧ 131071 < 2 ^ 17 := by
  decide

theorem witness_WindowLayout : unit.Sound ∧ unit.mem.coef[1]? = some CZERO ∧ unit.mem.work[0]? = some (real 0x40400000#32) ∧
    unit.mem.out[0]? = some CZERO ∧ unit.mem.profile[1]? = some (Config.num.buildAt 2 (zeroPad 2 1 (zeros 2)) 1) :=
  ⟨unit_sound, rfl, rfl, rfl, rfl⟩

theorem witness_ApertureIsLittleEndian : 0x00 % 4 = 0 ∧ 3 < 4 ∧ unit.wordAt 0x00 = some 0x4F4C5331#32 := ⟨rfl, by decide, rfl⟩

/-- The last half of the last entry of COEF, and another offset. -/
theorem witness_WindowWriteReadsBack : unit.Sound ∧ Idle unit ∧ Window.coef ≠ .profile ∧ 0x10000C % 4 = 0 ∧
    windowAt 0x10000C = some (.coef, 0x100000) ∧ entryIndex 0x10000C 0x100000 < windowSize unit.blockSize .coef ∧
    0x100008 % 4 = 0 ∧ 0x100008 ≠ 0x10000C := ⟨unit_sound, by decide⟩

theorem witness_RegisterMapReads : Idle unit ∧ unit.initialising = false := by decide

/-- In operation, and while initialising with no fault made and with one. -/
theorem witness_StatusWordFields : unit.initialising = false ∧ resetting.initialising = true ∧
    (raiseProto resetting).initialising = true := ⟨rfl, rfl, rfl⟩

theorem witness_ResetTable : ∃ t, blockTurn { resetting with delay := 0 } = true ∧
    ({ resetting with delay := 0 } : State).initialising = true ∧
    ({ resetting with delay := 0 } : State).status.proto = false ∧ step { resetting with delay := 0 } = .next t :=
  ⟨_, rfl, rfl, rfl, rfl⟩

/-- Reset of an idle, a stopped and a busy block; an access during initialisation; its end. -/
theorem witness_PowerOnResetFromAnyState :
    (HostTurn (scripted [.powerOnReset] unit) ∧ HostTurn (scripted [.powerOnReset] stopped) ∧
      HostTurn { scripted [.powerOnReset] (running 0x00000004#32 unit) with delay := 1 }) ∧
    (resetting.Inv ∧ resetting.initialising = true ∧ ¬(4 = 4 ∧ (0x20 = 0x00 ∨ 0x20 = 0x08))) ∧
    (blockTurn { resetting with delay := 0 } = true ∧ ({ resetting with delay := 0 } : State).initialising = true) :=
  ⟨by decide, ⟨⟨fun h => (by cases h.2), fun _ => ⟨rfl, rfl, rfl⟩, fun h => (by cases h)⟩, rfl, by decide⟩, rfl, rfl⟩

theorem witness_RebuildRoundTrip : ∃ t t', (∃ k, Config.nReset = 2 ^ k) ∧ Config.nReset ≤ Config.nMax ∧
    exec (.config Config.nReset) unit = .next t ∧ exec (.config Config.nReset) pair = .next t' :=
  ⟨_, _, ⟨_, rfl⟩, Config.nReset_le, rfl, rfl⟩

theorem witness_InverseTransformInverts : (0 : ℕ) < 1 ∧ (3 : ℕ) < 4 := by decide

theorem witness_ExactModelConvolves : (3 : ℕ) ≤ 2 + 1 ∧ (1 : ℕ) < 2 := by decide

theorem witness_ExactModelStreams : (3 : ℕ) ≤ 2 + 1 ∧ (1 : ℕ) < 2 := by decide

/-! ### Numerics with an accuracy: on all arguments at 1, and exactly on the arguments of a stream -/

/-- Numerics that give zero everywhere meet `ACC(1, 1)`, and no accuracy below 1 holds of all arguments. -/
def zeroNumerics : Numerics := { buildAt := fun _ _ _ => CZERO, applyAt := fun _ _ _ _ => CZERO }

theorem zeroNumerics_acc : zeroNumerics.Acc 1 1 where
  build := fun L h hL _ k _ => ⟨(by decide : CZERO.isFinite = true), by
    simpa [zeroNumerics] using norm_refBuild_le hL k⟩
  apply := fun N w p hw _ _ _ j _ => ⟨(by decide : CZERO.isFinite = true), by
    simpa [zeroNumerics] using norm_refApply_le (p := p) hw j⟩

/-- 1, 4 and 8 as samples. -/
def one : Sample := real 0x3F800000#32
def four : Sample := real 0x40800000#32
def eight : Sample := real 0x41000000#32

theorem val_one : one.val = 1 := by
  have h := f32_of_scaled (w := 0x3F800000#32) (z := 1) (by decide)
  have h0 := f32_of_scaled (w := 0x00000000#32) (z := 0) (by decide)
  apply Complex.ext <;> simp [Sample.val, one, real, h, h0]

theorem val_four : four.val = 4 := by
  have h := f32_of_scaled (w := 0x40800000#32) (z := 4) (by decide)
  have h0 := f32_of_scaled (w := 0x00000000#32) (z := 0) (by decide)
  apply Complex.ext <;> simp [Sample.val, four, real, h, h0]

theorem val_eight : eight.val = 8 := by
  have h := f32_of_scaled (w := 0x41000000#32) (z := 8) (by decide)
  have h0 := f32_of_scaled (w := 0x00000000#32) (z := 0) (by decide)
  apply Complex.ext <;> simp [Sample.val, eight, real, h, h0]

/-- Numerics that are exact on the coefficients `[1, 1]` at block size 1 (V-BLD-6: `PROFILE = [1, 0]`) and on the constant
stream `4, 4, ...`, whose convolution is `4, 8, 8, ...`. -/
def exactNumerics : Numerics :=
  { buildAt := fun _ _ k => if k = 0 then one else CZERO
    applyAt := fun _ w _ _ => if w = [CZERO, four] then four else eight }

/-- Block size 1 with that profile; `FIRST` is 1. -/
def streaming : State :=
  { unit with mem.profile := exactNumerics.build 2 (zeroPad 2 2 [one, one]) }

theorem exact_build : exactNumerics.AccBuildOn 0 (2 * streaming.blockSize)
    (zeroPad (2 * streaming.blockSize) 2 [one, one]) := by
  show exactNumerics.AccBuildOn 0 2 [one, one]
  intro k hk
  have h0 : values [one, one] 0 = 1 := val_one
  have h1 : values [one, one] 1 = 1 := val_one
  interval_cases k
  · refine ⟨by decide, ?_⟩
    rw [(refBuild_two _).1, h0, h1]; simp [exactNumerics, val_one]
  · refine ⟨by decide, ?_⟩
    rw [(refBuild_two _).2, h0, h1]; simp [exactNumerics]

theorem exact_apply : exactNumerics.AccApplyOn 0 1 [CZERO, four] [one, CZERO] ∧
    exactNumerics.AccApplyOn 0 1 [four, four] [one, CZERO] := by
  have h0 : values [one, CZERO] 0 = 1 := val_one
  have h1 : values [one, CZERO] 1 = 0 := val_CZERO
  have h2 : values [CZERO, four] 0 = 0 := val_CZERO
  have h3 : values [CZERO, four] 1 = 4 := val_four
  have h4 : values [four, four] 0 = 4 := val_four
  have h5 : values [four, four] 1 = 4 := val_four
  constructor <;> intro j hj <;> obtain rfl : j = 0 := by omega
  · refine ⟨by decide, ?_⟩
    rw [refApply_one, h0, h1, h2, h3, show exactNumerics.applyAt 1 [CZERO, four] [one, CZERO] 0 = four from rfl, val_four]
    norm_num
  · refine ⟨by decide, ?_⟩
    rw [refApply_one, h0, h1, h4, h5, show exactNumerics.applyAt 1 [four, four] [one, CZERO] 0 = eight by decide, val_eight]
    norm_num

/-- What each `APPLY` of the stream transforms. -/
theorem streaming_buffer (b : ℕ) : (streamBefore exactNumerics (fun _ => [four]) streaming b).blockSize = 1 ∧
    firstCallWork (streamBefore exactNumerics (fun _ => [four]) streaming b) =
      if b = 0 then [CZERO, four] else [four, four] := by
  induction b with
  | zero => exact ⟨rfl, rfl⟩
  | succ b ih =>
    obtain ⟨h1, h2⟩ := ih
    refine ⟨h1, ?_⟩
    show (saveHistory (streamBefore exactNumerics (fun _ => [four]) streaming b).blockSize
      (firstCallWork (streamBefore exactNumerics (fun _ => [four]) streaming b))).take
        (streamBefore exactNumerics (fun _ => [four]) streaming b).blockSize ++ [four] = _
    rw [h1, h2]
    split <;> rfl

theorem streaming_wf : streaming.mem.wf streaming.blockSize := ⟨rfl, by simp [streaming]; rfl, rfl, rfl⟩

/-- With both accuracies 0. -/
theorem witness_ApplyConvolvesWithinAcc : (0 : ℝ) ≤ 0 ∧ 1 ≤ streaming.blockSize ∧ streaming.mem.wf streaming.blockSize ∧
    2 ≤ streaming.blockSize + 1 ∧
    streaming.mem.profile = exactNumerics.build (2 * streaming.blockSize) (zeroPad (2 * streaming.blockSize) 2 [one, one]) ∧
    (∀ n < 2, (entry [one, one] n).isFinite = true) ∧ allFinite (firstCallWork streaming) = true ∧
    exactNumerics.AccBuildOn 0 (2 * streaming.blockSize) (zeroPad (2 * streaming.blockSize) 2 [one, one]) ∧
    exactNumerics.AccApplyOn 0 streaming.blockSize (firstCallWork streaming) streaming.mem.profile :=
  ⟨le_refl 0, by decide, streaming_wf, by decide, rfl, by decide, by decide, exact_build, exact_apply.1⟩

/-- With both accuracies 0, from `FIRST = 1`. -/
theorem witness_StreamIsDirectConvolution : (0 : ℝ) ≤ 0 ∧ 1 ≤ streaming.blockSize ∧
    streaming.mem.wf streaming.blockSize ∧ 2 ≤ streaming.blockSize + 1 ∧ streaming.status.first = true ∧
    streaming.mem.profile = exactNumerics.build (2 * streaming.blockSize) (zeroPad (2 * streaming.blockSize) 2 [one, one]) ∧
    (∀ n < 2, (entry [one, one] n).isFinite = true) ∧
    (∀ b : ℕ, ((fun _ => [four]) b).length = streaming.blockSize ∧ allFinite ((fun _ => [four]) b) = true) ∧
    exactNumerics.AccBuildOn 0 (2 * streaming.blockSize) (zeroPad (2 * streaming.blockSize) 2 [one, one]) ∧
    ∀ b, exactNumerics.AccApplyOn 0 streaming.blockSize
      (firstCallWork (streamBefore exactNumerics (fun _ => [four]) streaming b)) streaming.mem.profile := by
  refine ⟨le_refl 0, by decide, streaming_wf, by decide, rfl, rfl, by decide,
    fun _ => ⟨rfl, (by decide : allFinite [four] = true)⟩, exact_build, fun b => ?_⟩
  rw [(streaming_buffer b).2]
  split
  · exact exact_apply.1
  · exact exact_apply.2

/-- A silent input half after a non-finite history, which the first call zeroes. -/
def silent : State :=
  { unit with mem := { unit.mem with profile := zeros 2, work := [⟨0x7FC00000#32, 0x00000000#32⟩, CZERO] } }

theorem witness_ZeroInZeroOut : silent.mem.wf silent.blockSize ∧ allFinite silent.mem.profile = true ∧
    allFinite (firstCallWork silent) = true ∧ (∀ k < 2 * silent.blockSize, values (firstCallWork silent) k = 0) ∧
    zeroNumerics.AccApplyOn 1 silent.blockSize (firstCallWork silent) silent.mem.profile := by
  have h : firstCallWork silent = zeros 2 := rfl
  refine ⟨⟨rfl, rfl, rfl, rfl⟩, by decide, by decide, fun k _ => ?_,
    zeroNumerics_acc.apply _ _ _ rfl rfl (by decide) (by decide)⟩
  rw [h, values, entry_zeros, val_CZERO]

end Sys2Proof.Tests
end

section
/-! The transforms of the exact model (00_scope.md R11): the orthogonality of the powers of `omega`, and the
inversion law that follows from it. -/

namespace Sys2Proof

theorem omega_isPrimitiveRoot {L : ℕ} (hL : L ≠ 0) : IsPrimitiveRoot (omega L) L :=
  Complex.isPrimitiveRoot_exp L hL

theorem omega_ne_zero (L : ℕ) : omega L ≠ 0 := Complex.exp_ne_zero _

/-- Orthogonality: a full period of the powers of `omega L ^ z` adds up to `L` when `L` divides the frequency `z`,
and cancels otherwise, as a geometric sum with first power 1, `L`-th power 1 and ratio other than 1. -/
theorem sum_omega_zpow {L : ℕ} (hL : L ≠ 0) (z : ℤ) :
    ∑ k ∈ Finset.range L, omega L ^ ((k : ℤ) * z) = if (L : ℤ) ∣ z then (L : ℂ) else 0 := by
  have hroot := omega_isPrimitiveRoot hL
  have hpow : ∀ k : ℕ, omega L ^ ((k : ℤ) * z) = (omega L ^ z) ^ k := fun k => by
    rw [mul_comm, zpow_mul, zpow_natCast]
  simp only [hpow]
  split
  next hdvd =>
    have hone : omega L ^ z = 1 := (hroot.zpow_eq_one_iff_dvd z).mpr hdvd
    simp [hone]
  next hndvd =>
    have hne : omega L ^ z ≠ 1 := mt (hroot.zpow_eq_one_iff_dvd z).mp hndvd
    have hL1 : (omega L ^ z) ^ L = 1 := by
      rw [← hpow]
      exact (hroot.zpow_eq_one_iff_dvd _).mpr (dvd_mul_right _ _)
    rw [geom_sum_eq hne, hL1, sub_self, zero_div]

/-- Two indices of one period differ by a multiple of the period only when they are equal. -/
theorem dvd_index_sub_iff {L n m : ℕ} (hn : n < L) (hm : m < L) : (L : ℤ) ∣ (n : ℤ) - m ↔ n = m := by
  rw [← Int.natCast_inj, ← sub_eq_zero (a := (n : ℤ))]
  exact ⟨fun h => Int.eq_zero_of_abs_lt_dvd h (by rw [abs_lt]; omega), fun h => h ▸ dvd_zero _⟩

/-- The sums exchanged: the round trip weighs each entry by the sum of the powers at its distance. -/
theorem idft_dft_eq_sum (L : ℕ) (v : ℕ → ℂ) (n : ℕ) :
    idft L (dft L v) n =
      ∑ m ∈ Finset.range L, v m * ∑ k ∈ Finset.range L, omega L ^ ((k : ℤ) * ((n : ℤ) - m)) := by
  simp only [idft, dft, Finset.sum_mul, Finset.mul_sum]
  rw [Finset.sum_comm]
  refine Finset.sum_congr rfl fun m _ => Finset.sum_congr rfl fun k _ => ?_
  rw [mul_assoc, ← zpow_add₀ (omega_ne_zero L)]
  congr 2
  ring

theorem idft_dft {L n : ℕ} (v : ℕ → ℂ) (hn : n < L) : idft L (dft L v) n = L * v n := by
  have hweight : ∀ m ∈ Finset.range L,
      v m * ∑ k ∈ Finset.range L, omega L ^ ((k : ℤ) * ((n : ℤ) - m)) = if n = m then v m * L else 0 := by
    intro m hm
    rw [sum_omega_zpow (Nat.ne_zero_of_lt hn), mul_ite, mul_zero]
    simp only [dvd_index_sub_iff hn (Finset.mem_range.mp hm)]
  rw [idft_dft_eq_sum, Finset.sum_congr rfl hweight, Finset.sum_ite_eq, if_pos (Finset.mem_range.mpr hn), mul_comm]

/-- Settles O47: the two sums are the definitions themselves, and the inversion law is orthogonality. -/
theorem inverseTransformInverts : Obligations.InverseTransformInverts :=
  fun _ v => ⟨fun _ _ => rfl, fun _ _ => rfl, fun _ hn => idft_dft v hn⟩

end Sys2Proof
end

section
/-! `FIRST`, who writes it (10_state.md R23), and the values of the reset table (10 R43). -/

namespace Sys2Proof

/-! ### Sizes and the entries of a rebuild -/

/-- No size a register holds wraps: each is at most `2*NMAX`, far below `2^32` (00 R5). -/
theorem toNat_ofNat_size {n : Nat} (h : n ≤ 2 * Config.nMax) : (BitVec.ofNat 32 n).toNat = n := by
  have hmax := Config.nMax_le
  rw [BitVec.toNat_ofNat]
  exact Nat.mod_eq_of_lt (by omega)

theorem zeros_getElem? {n k : Nat} (h : k < n) : (zeros n)[k]? = some CZERO := by simp [zeros, h]

theorem defaultCoef_getElem? {n k : Nat} (h : k ≤ n) :
    (defaultCoef n)[k]? = some (Config.designAt Config.defLo Config.defHi Config.fs (n + 1) k) := by
  have hk : k < n + 1 := by omega
  simp [defaultCoef, Config.design, hk]

/-- The profile of a rebuild is built from all its coefficients followed by `CZERO` (42 R113). -/
theorem defaultProfile_getElem? {n k : Nat} (hn : 1 ≤ n) (hk : k < 2 * n) :
    (defaultProfile n)[k]? =
      some (Config.num.buildAt (2 * n) (defaultCoef n ++ List.replicate (n - 1) CZERO) k) := by
  have hpad : zeroPad (2 * n) (n + 1) (defaultCoef n) = defaultCoef n ++ List.replicate (n - 1) CZERO := by
    rw [zeroPad_eq_append (defaultCoef_length n) (by omega), show 2 * n - (n + 1) = n - 1 by omega]
  rw [getElem?_eq_entry (by simpa using hk), defaultProfile, entry_build _ _ hk, hpad]

namespace Machine

/-! ### Reading a register -/

/-- Every register stands at a word offset of the REG region (10 R18). -/
theorem RegName.ofOffset_bounds {a : Nat} {r : RegName} (h : RegName.ofOffset a = some r) :
    a % 4 = 0 ∧ a < 0x100 := by
  unfold RegName.ofOffset at h
  split at h <;> simp at h ⊢

/-- A whole-word read of a register of an idle block returns what it holds and changes nothing (20 R52). -/
theorem memRead_register {s : State} {a : Nat} {r : RegName} (hs : Idle s) (hr : RegName.ofOffset a = some r) :
    memRead a 4 s = (s.readReg r, s) := by
  obtain ⟨halign, hreg⟩ := RegName.ofOffset_bounds hr
  have hword : s.wordAt a = some (s.readReg r) := by rw [State.wordAt, if_pos hreg, hr, Option.map_some]
  rw [memRead_idle hs halign, hword]

/-! ### Who writes `FIRST` -/

/-- The two outcomes of `CONFIG n` (42 R113, R114). -/
theorem exec_config_cases {n : Nat} {s t : State} (h : exec (.config n) s = .next t) :
    (validBlockSize n = true ∧ t = finish .ok (rebuild n s)) ∨ (validBlockSize n = false ∧ t = raiseFatal s) := by
  cases h
  cases validBlockSize n
  · exact .inr ⟨rfl, rfl⟩
  · exact .inl ⟨rfl, rfl⟩

theorem exec_apply_eq {s t : State} (h : exec .apply s = .next t) : t = applyWith Config.num s := by
  cases h; rfl

@[simp] theorem applyWith_first (num : Numerics) (s : State) : (applyWith num s).status.first = false := rfl

@[simp] theorem buildWith_status (num : Numerics) (m : Nat) (s : State) :
    (buildWith num m s).status = { s.status with busy := false } := by
  unfold buildWith
  split <;> rfl

/-- Every command but `APPLY` and `CONFIG` leaves `FIRST` (10 R23). -/
theorem exec_keeps_first {i : Instr} {s t : State} (h : exec i s = .next t) (happly : i ≠ .apply)
    (hconfig : ∀ n, i ≠ .config n) : t.status.first = s.status.first := by
  cases i with
  | nop => cases h; rfl
  | config n => exact absurd rfl (hconfig n)
  | build m => cases h; rw [buildWith_status]
  | restart => cases h; rfl
  | apply => exact absurd rfl happly
  | setPassband => cases h; split <;> rfl
  | getPassband => cases h; rfl

/-- `FIRST` after a command that is not the fatal stop. -/
theorem exec_first_iff {i : Instr} {s t : State} (h : exec i s = .next t) (hf : t.status.fatal = false) :
    t.status.first = true ↔ (∃ n, i = .config n) ∨ (s.status.first = true ∧ i ≠ .apply) := by
  by_cases hconfig : ∃ n, i = .config n
  · obtain ⟨n, rfl⟩ := hconfig
    rcases exec_config_cases h with ⟨-, rfl⟩ | ⟨-, rfl⟩
    · exact ⟨fun _ => .inl ⟨n, rfl⟩, fun _ => rfl⟩
    · cases hf
  · by_cases happly : i = .apply
    · subst happly
      simp [exec_apply_eq h]
    · simp [exec_keeps_first h happly (not_exists.mp hconfig), hconfig, happly]

/-- No host access but reset changes `FIRST`, and reset leaves the block initialising. -/
theorem hostAccess_keeps_first {act : HostAct} {s t : State} (h : hostAccess act s = .next t) :
    t.status.first = s.status.first ∨ t.initialising = true := by
  rcases hostAccess_cases h with ⟨a, n, -, -, rfl⟩ | ⟨a, n, v, -, -, rfl⟩ | ⟨-, rfl⟩ | ⟨-, rfl⟩
  · left; simp
  · left; exact (memWrite_keeps a n v s).2.1
  · left; simp
  · right; rfl

/-- A step of a block out of reset that changes `FIRST` is the engine's, of `APPLY` or `CONFIG` (10 R23). -/
theorem step_changes_first {s t : State} (hs : s.initialising = false) (ht : t.initialising = false)
    (h : step s = .next t) (hne : t.status.first ≠ s.status.first) :
    EngineTurn s ∧ (decode s.regs.cmd = .ok .apply ∨ ∃ n, decode s.regs.cmd = .ok (.config n)) := by
  rcases step_cases h with ⟨-, hinit, -⟩ | ⟨hturn, ⟨i, hdec, hexec⟩ | ⟨e, -, rfl⟩⟩ |
    ⟨-, ⟨-, -, rfl⟩ | ⟨act, rest, -, hacc⟩⟩
  · simp [hs] at hinit
  · refine ⟨hturn, ?_⟩
    by_contra hother
    rw [not_or, not_exists] at hother
    obtain ⟨happly, hconfig⟩ := hother
    exact hne (exec_keeps_first hexec (fun hi => happly (hi ▸ hdec)) fun n hi => hconfig n (hi ▸ hdec))
  · exact absurd rfl hne
  · exact absurd rfl hne
  · rcases hostAccess_keeps_first hacc with hkeep | hinit
    · exact absurd hkeep hne
    · simp [ht] at hinit

theorem firstCallWork_of_first {s : State} (h : s.status.first = true) :
    firstCallWork s = zeroHistory s.blockSize s.mem.work := if_pos h

/-- The end of initialisation is the block's own step (70 R136). -/
theorem step_initialised {s : State} (hturn : blockTurn s = true) (hinit : s.initialising = true) :
    step s = .next (finishReset s) := by
  simp [step, hturn, hinit]

theorem eq_finishReset {s t : State} (hturn : blockTurn s = true) (hinit : s.initialising = true)
    (h : step s = .next t) : t = finishReset s := by
  rw [step_initialised hturn hinit] at h
  cases h; rfl

/-- Settles O30: one command at a time for the value, the work buffer after the first-call zeroing for `APPLY`, and
every kind of step for the frame. -/
theorem firstFlagRule : Obligations.FirstFlagRule := by
  refine ⟨fun i s t => exec_first_iff, fun s t hsound hfirst happly => ?_, fun s t hturn hinit hstep => ?_,
    fun s t => step_changes_first⟩
  · rw [exec_apply_eq happly]
    refine ⟨firstCallWork s, ?_, ?_, fun j hj => applyWith_out hsound.sizes hj⟩
    · intro k hk; rw [firstCallWork_of_first hfirst]; exact zeroHistory_getElem?_front hk
    · intro k hk; rw [firstCallWork_of_first hfirst]; exact zeroHistory_getElem?_back hk
  · rw [eq_finishReset hturn hinit hstep, finishReset_first]

/-! ### The reset table -/

/-- The block's own elements right after a reset: only the model's own fields may differ from `State.reset`. -/
theorem elements_of_reset {t : State} (h : t = State.reset ∨
    ∃ s, blockTurn s = true ∧ s.initialising = true ∧ s.status.proto = false ∧ step s = .next t) :
    t.regs = State.reset.regs ∧ t.status = State.reset.status ∧ t.mem = State.reset.mem ∧ t.initialising = false := by
  rcases h with rfl | ⟨s, hturn, hinit, hproto, hstep⟩
  · exact ⟨rfl, rfl, rfl, rfl⟩
  · rw [eq_finishReset hturn hinit hstep]
    exact ⟨rfl, by simp [finishReset, State.reset, hproto], rfl, rfl⟩

theorem reset_sizes : State.reset.regs.blkSize.toNat = Config.nReset ∧
    State.reset.regs.fftLen.toNat = 2 * Config.nReset ∧ State.reset.regs.nTaps.toNat = Config.nReset + 1 := by
  have hpos := Config.nReset_pos
  have hmax := Config.nReset_le
  exact ⟨toNat_ofNat_size (by omega), toNat_ofNat_size (by omega), toNat_ofNat_size (by omega)⟩

/-- Settles O44: the elements of a reset block are those of `State.reset`, read off field by field, entry by entry
and through the constant registers. -/
theorem resetTable : Obligations.ResetTable := by
  intro t ht
  obtain ⟨hregs, hstatus, hmem, hinit⟩ := elements_of_reset ht
  obtain ⟨hblk, hfft, htaps⟩ := reset_sizes
  have hidle : Idle t := by rw [Idle, hstatus]; exact ⟨rfl, rfl⟩
  have hword : t.status.word = 0x00000002#32 := by rw [hstatus]; rfl
  have hstatusWord : t.statusWord = 0x00000002#32 := by simpa [State.statusWord, hinit] using hword
  have hnMax : (memRead 0x2C 4 t).1.toNat = Config.nMax := by
    rw [memRead_register hidle (r := .nMaxReg) rfl]
    exact toNat_ofNat_size (by omega)
  rw [hregs, hmem]
  exact ⟨rfl, hword, hstatusWord, rfl, rfl, rfl, rfl, rfl, hblk, hfft, htaps, rfl, rfl,
    memRead_register hidle (r := .id) rfl, hnMax, memRead_register hidle (r := .fsReg) rfl,
    memRead_register hidle (r := .minBwReg) rfl, reset_wf, fun _ hk => defaultCoef_getElem? hk,
    fun _ hk => defaultProfile_getElem? Config.nReset_pos hk, fun _ hk => zeros_getElem? hk,
    fun _ hk => zeros_getElem? hk, hinit⟩

end Machine

end Sys2Proof
end

section
/-! The host's accesses (20_memory.md): what the aperture holds at an offset, and which accesses are protocol
faults (20 R48, R51, R57, R58, R66). -/

namespace Sys2Proof.Machine
open HostSyntax (windowBase)

/-! ### Registers and windows of the aperture -/

/-- The last register of the map stands at `0x34` (10 R18). -/
theorem RegName.ofOffset_eq_none {a : Nat} (h : 0x38 ≤ a) : RegName.ofOffset a = none := by
  unfold RegName.ofOffset
  split
  any_goals omega
  rfl

theorem RegName.offset_eq_of_status {a : Nat} (h : RegName.ofOffset a = some .status) : a = 0x08 := by
  unfold RegName.ofOffset at h
  split at h <;> simp at h ⊢

/-- The registers of 20 R57: all but `CMD`, `ARG0` and `ARG1`. -/
abbrev RegName.ReadOnly (r : RegName) : Prop := r ≠ .cmd ∧ r ≠ .arg0 ∧ r ≠ .arg1

/-- The offsets that 20 R57 makes read-only are those of the read-only registers. -/
theorem RegName.readOnly_of_offset {a : Nat} (h : a = 0x00 ∨ a = 0x08 ∨ a = 0x0C ∨ a = 0x18 ∨ a = 0x1C ∨ a = 0x20 ∨
    a = 0x24 ∨ a = 0x28 ∨ a = 0x2C ∨ a = 0x30 ∨ a = 0x34) : ∃ r, RegName.ofOffset a = some r ∧ r.ReadOnly := by
  rcases h with rfl | rfl | rfl | rfl | rfl | rfl | rfl | rfl | rfl | rfl | rfl <;> exact ⟨_, rfl, by decide⟩

/-- The windows lie between the two unmapped regions of 20 R45. -/
theorem windowAt_eq_none {a : Nat} (h : a < 0x100000 ∨ 0x500000 ≤ a) : windowAt a = none := by
  cases hw : windowAt a with
  | none => rfl
  | some p =>
    have := windowAt_cases hw
    omega

/-- Every byte of entry `k` lies in the window, for every `k` that its span has room for (20 R45, R47). -/
theorem windowAt_entry (w : Window) {k i : Nat} (hk : k < 2 ^ 17) (hi : i < 8) :
    windowAt (windowBase w + 8 * k + i) = some (w, windowBase w) := by
  cases w with
  | coef => rw [windowAt, windowBase, if_pos (by omega)]
  | profile => rw [windowAt, windowBase, if_neg (by omega), if_pos (by omega)]
  | work => rw [windowAt, windowBase, if_neg (by omega), if_neg (by omega), if_pos (by omega)]
  | out => rw [windowAt, windowBase, if_neg (by omega), if_neg (by omega), if_neg (by omega), if_pos (by omega)]

theorem entryIndex_entry (base k : Nat) {i : Nat} (hi : i < 8) : entryIndex (base + 8 * k + i) base = k := by
  unfold entryIndex
  omega

/-- The halves of an entry, in the order of 20 R47. -/
theorem half_entry (c : Sample) (w : Window) (k : Nat) :
    c.half (windowBase w + 8 * k) = c.re ∧ c.half (windowBase w + 8 * k + 4) = c.im := by
  cases w <;> exact ⟨if_pos (by rw [windowBase]; omega), if_neg (by rw [windowBase]; omega)⟩

/-- Every entry of a window begins at a multiple of 4, and so does its second half. -/
theorem entry_offset_aligned (w : Window) (k : Nat) {i : Nat} (hi : i % 4 = 0) :
    (windowBase w + 8 * k + i) % 4 = 0 := by
  cases w <;> rw [windowBase] <;> omega

/-- The largest block's entries fit in a window's `2^20` bytes (20 R47, 00 R5). -/
theorem windowSize_le {n : Nat} (hn : n ≤ Config.nMax) (w : Window) : windowSize n w ≤ 2 ^ 17 := by
  have := Config.nMax_le
  cases w <;> rw [windowSize] <;> omega

/-- A base of 20 R45, beside what some `f` gives of its window, names the window. -/
theorem exists_window_of_base {α : Type} (f : Window → α) {base : Nat} {x : α} (h : (base = 0x100000 ∧ x = f .coef) ∨
    (base = 0x200000 ∧ x = f .profile) ∨ (base = 0x300000 ∧ x = f .work) ∨ (base = 0x400000 ∧ x = f .out)) :
    ∃ w, base = windowBase w ∧ x = f w := by
  rcases h with h | h | h | h
  · exact ⟨.coef, h⟩
  · exact ⟨.profile, h⟩
  · exact ⟨.work, h⟩
  · exact ⟨.out, h⟩

/-! ### The word at an offset -/

theorem wordAt_reg (s : State) {a : Nat} (h : a < 0x100) : s.wordAt a = (RegName.ofOffset a).map s.readReg := if_pos h

theorem wordAt_window (s : State) {a : Nat} {w : Window} {base : Nat} (h : windowAt a = some (w, base)) :
    s.wordAt a = if entryIndex a base < windowSize s.blockSize w then
      some ((entry (s.mem.get w) (entryIndex a base)).half a) else none := by
  have := windowAt_cases h
  rw [State.wordAt, if_neg (by omega), h]

theorem wordAt_unmapped_region (s : State) {a : Nat} (ha : 0x100 ≤ a) (h : windowAt a = none) :
    s.wordAt a = none := by
  rw [State.wordAt, if_neg (by omega), h]

/-- No location at or beyond the current size of a window (20 R48). -/
theorem wordAt_entry_beyond {s : State} {w : Window} {k i : Nat} (hk : k < 2 ^ 17) (hi : i < 8)
    (h : windowSize s.blockSize w ≤ k) : s.wordAt (windowBase w + 8 * k + i) = none := by
  rw [wordAt_window s (windowAt_entry w hk hi), entryIndex_entry _ _ hi, if_neg (by omega)]

theorem wordAt_entry_within {s : State} {w : Window} {k i : Nat} (hk : k < 2 ^ 17) (hi : i < 8)
    (h : k < windowSize s.blockSize w) :
    s.wordAt (windowBase w + 8 * k + i) = some ((entry (s.mem.get w) k).half (windowBase w + 8 * k + i)) := by
  rw [wordAt_window s (windowAt_entry w hk hi), entryIndex_entry _ _ hi, if_pos h]

/-- No location at the offsets of 20 R66. -/
theorem wordAt_unmapped (s : State) {a : Nat}
    (h : (0x38 ≤ a ∧ a < 0x100) ∨ (0x100 ≤ a ∧ a < 0x100000) ∨ 0x500000 ≤ a) : s.wordAt a = none := by
  by_cases hreg : a < 0x100
  · rw [wordAt_reg s hreg, RegName.ofOffset_eq_none (by omega), Option.map_none]
  · exact wordAt_unmapped_region s (by omega) (windowAt_eq_none (by omega))

theorem readReg_raiseProto (s : State) {r : RegName} (h : r ≠ .status) : (raiseProto s).readReg r = s.readReg r := by
  cases r with
  | status => exact absurd rfl h
  | _ => rfl

/-- A protocol fault shows in `STATUS` alone (60 R123). -/
theorem wordAt_raiseProto (s : State) {a : Nat} (h : a ≠ 0x08) : (raiseProto s).wordAt a = s.wordAt a := by
  by_cases hreg : a < 0x100
  · rw [wordAt_reg _ hreg, wordAt_reg _ hreg]
    cases hr : RegName.ofOffset a with
    | none => rfl
    | some r =>
      have hne : r ≠ .status := fun hst => h (RegName.offset_eq_of_status (hst ▸ hr))
      rw [Option.map_some, Option.map_some, readReg_raiseProto s hne]
  · exact wordAt_congr a (by omega) rfl fun _ _ _ => rfl

/-! ### Which accesses are protocol faults -/

/-- The whole effect of a faulting read: `PROTO`, and the model's draw of the value (20 R54, log 5). -/
theorem exists_anyWord_raiseProto (s : State) :
    ∃ u, anyWord (raiseProto s) = (u, { s with status.proto := true, draws := s.draws + 1 }) := ⟨_, rfl⟩

theorem memRead_malformed {s : State} {a n : Nat} (hf : s.status.fatal = false) (h : n ≠ 4 ∨ a % 4 ≠ 0) :
    memRead a n s = anyWord (raiseProto s) := by
  rw [memRead, if_neg (by simp [hf]), if_pos h]

theorem memWrite_malformed {s : State} {a n : Nat} (v : Word) (hf : s.status.fatal = false)
    (h : n ≠ 4 ∨ a % 4 ≠ 0) : memWrite a n v s = raiseProto s := by
  rw [memWrite, if_neg (by simp [hf]), if_pos h]

theorem memRead_while_busy {s : State} {a n : Nat} (hf : s.status.fatal = false) (hb : s.status.busy = true)
    (h : ¬(n = 4 ∧ (a = 0x00 ∨ a = 0x08))) : memRead a n s = anyWord (raiseProto s) := by
  by_cases hform : n ≠ 4 ∨ a % 4 ≠ 0
  · exact memRead_malformed hf hform
  · rw [memRead, if_neg (by simp [hf]), if_neg hform, if_pos ⟨hb, fun ha => h ⟨by omega, ha⟩⟩]

theorem memWrite_while_busy {s : State} (a n : Nat) (v : Word) (hf : s.status.fatal = false)
    (hb : s.status.busy = true) : memWrite a n v s = raiseProto s := by
  by_cases hform : n ≠ 4 ∨ a % 4 ≠ 0
  · exact memWrite_malformed v hf hform
  · rw [memWrite, if_neg (by simp [hf]), if_neg hform, if_pos hb]

/-- `ID` is served in every state (20 R52, R58, 60 R126). -/
@[simp] theorem memRead_id (s : State) : memRead 0x00 4 s = (Config.id, s) := by
  unfold memRead
  split <;> simp [wordAt_reg, RegName.ofOffset, State.readReg]

theorem memRead_of_wordAt_none {s : State} {a : Nat} (hs : Idle s) (ha : a % 4 = 0) (h : s.wordAt a = none) :
    memRead a 4 s = anyWord (raiseProto s) := by
  rw [memRead_idle hs ha, h]

theorem memRead_of_wordAt_some {s : State} {a : Nat} {u : Word} (hs : Idle s) (ha : a % 4 = 0)
    (h : s.wordAt a = some u) : memRead a 4 s = (u, s) := by
  rw [memRead_idle hs ha, h]

theorem writeReg_of_ofOffset_none {a : Nat} (v : Word) (s : State) (h : RegName.ofOffset a = none) :
    writeReg a v s = raiseProto s := by
  rw [writeReg, h]

theorem writeReg_readOnly {a : Nat} {r : RegName} (v : Word) (s : State) (h : RegName.ofOffset a = some r)
    (hro : r.ReadOnly) : writeReg a v s = raiseProto s := by
  obtain ⟨hcmd, harg0, harg1⟩ := hro
  rw [writeReg, h]
  cases r with
  | cmd => exact absurd rfl hcmd
  | arg0 => exact absurd rfl harg0
  | arg1 => exact absurd rfl harg1
  | _ => rfl

theorem writeWindow_profile (base a : Nat) (v : Word) (s : State) :
    writeWindow .profile base a v s = raiseProto s := if_pos rfl

theorem writeWindow_beyond {w : Window} {base a : Nat} (v : Word) {s : State}
    (h : ¬entryIndex a base < windowSize s.blockSize w) : writeWindow w base a v s = raiseProto s := by
  rw [writeWindow, if_neg h, ite_self]

/-- A write where no location is, is a protocol fault, whichever of 20 R48 and R66 says so. -/
theorem memWrite_of_wordAt_none {s : State} {a : Nat} (v : Word) (hs : Idle s) (ha : a % 4 = 0)
    (h : s.wordAt a = none) : memWrite a 4 v s = raiseProto s := by
  rw [memWrite_idle v hs ha]
  split
  next hreg =>
    rw [wordAt_reg s hreg, Option.map_eq_none_iff] at h
    exact writeReg_of_ofOffset_none v s h
  next =>
    split
    next w base hw =>
      rw [wordAt_window s hw] at h
      exact writeWindow_beyond v fun hk => by simp [hk] at h
    next => rfl

theorem memWrite_readOnly_register {s : State} {a : Nat} {r : RegName} (v : Word) (hs : Idle s)
    (hr : RegName.ofOffset a = some r) (hro : r.ReadOnly) : memWrite a 4 v s = raiseProto s := by
  obtain ⟨halign, hreg⟩ := RegName.ofOffset_bounds hr
  rw [memWrite_idle v hs halign, if_pos hreg, writeReg_readOnly v s hr hro]

theorem memWrite_profile {s : State} {a : Nat} (v : Word) (hs : Idle s) (ha : a % 4 = 0)
    (h : 0x200000 ≤ a ∧ a < 0x300000) : memWrite a 4 v s = raiseProto s := by
  have hw : windowAt a = some (.profile, 0x200000) := by rw [windowAt, if_neg (by omega), if_pos h]
  rw [memWrite_idle v hs ha, if_neg (by omega), hw]
  exact writeWindow_profile _ a v s

/-- Both accesses where no location is. -/
theorem access_of_wordAt_none {s : State} {a : Nat} (v : Word) (hs : Idle s) (ha : a % 4 = 0)
    (h : s.wordAt a = none) : memWrite a 4 v s = { s with status.proto := true } ∧
      ∃ u, memRead a 4 s = (u, { s with status.proto := true, draws := s.draws + 1 }) := by
  refine ⟨memWrite_of_wordAt_none v hs ha h, ?_⟩
  rw [memRead_of_wordAt_none hs ha h]
  exact exists_anyWord_raiseProto s

/-! ### The obligations -/

/-- Settles O34: `ID` and `STATUS` are always served, and `BUSY` turns every other access into a fault. -/
theorem busyAccessIsFault : Obligations.BusyAccessIsFault := by
  intro s hf hb
  refine ⟨memRead_id s, memRead_status s, fun a n v => memWrite_while_busy a n v hf hb, fun a n h => ?_⟩
  rw [memRead_while_busy hf hb h]
  exact exists_anyWord_raiseProto s

/-- Settles O35: with no fatal fault, the form of an access is checked before anything else of it. -/
theorem misalignedOrWrongWidthIsFault : Obligations.MisalignedOrWrongWidthIsFault := by
  intro s a n v hf h
  refine ⟨memWrite_malformed v hf h, ?_⟩
  rw [memRead_malformed hf h]
  exact exists_anyWord_raiseProto s

/-- Settles O36: a write to a read-only register or to `PROFILE` is a fault, and a fault shows in `STATUS` alone. -/
theorem readOnlyWriteIsFault : Obligations.ReadOnlyWriteIsFault := by
  intro s a v hs ha h
  have hfault : memWrite a 4 v s = raiseProto s := by
    by_cases hprofile : 0x200000 ≤ a ∧ a < 0x300000
    · exact memWrite_profile v hs ha hprofile
    · obtain ⟨r, hr, hro⟩ := RegName.readOnly_of_offset (a := a) (by omega)
      exact memWrite_readOnly_register v hs hr hro
  exact ⟨hfault, fun hne => by rw [hfault, wordAt_raiseProto s hne]⟩

/-- Settles O37: no location is at such an offset. -/
theorem unmappedAccessIsFault : Obligations.UnmappedAccessIsFault :=
  fun s _ v hs ha h => access_of_wordAt_none v hs ha (wordAt_unmapped s (by omega))

/-- Settles O38: a location is at an entry's halves exactly below the current size. -/
theorem accessBeyondCurrentSizeIsFault : Obligations.AccessBeyondCurrentSizeIsFault := by
  intro s base size k half v hs hwindow hhalf hk
  obtain ⟨w, rfl, rfl⟩ := exists_window_of_base (windowSize s.blockSize) hwindow
  have ha := entry_offset_aligned w k (i := half) (by omega)
  refine ⟨fun h => access_of_wordAt_none v hs ha (wordAt_entry_beyond hk (by omega) h), fun h => ?_⟩
  rw [memRead_of_wordAt_some hs ha (wordAt_entry_within hk (by omega) h)]

/-- Settles O39: a current entry lies below the window's current size, which fits in the span, and its two offsets
name its two halves. -/
theorem windowLayout : Obligations.WindowLayout := by
  intro s hsound base m hwindow k c hc
  obtain ⟨w, rfl, rfl⟩ := exists_window_of_base s.mem.get hwindow
  obtain ⟨hlt, -⟩ := List.getElem?_eq_some_iff.mp hc
  have hentry : entry (s.mem.get w) k = c := by rw [entry, List.getD, hc, Option.getD_some]
  have hsize : k < windowSize s.blockSize w := by rwa [Memory.get_length hsound.sizes] at hlt
  have hspan : k < 2 ^ 17 := hsize.trans_le (windowSize_le hsound.block_le w)
  have hword : ∀ i < 8, s.wordAt (windowBase w + 8 * k + i) = some (c.half (windowBase w + 8 * k + i)) :=
    fun i hi => by rw [wordAt_entry_within hspan hi hsize, hentry]
  obtain ⟨hre, him⟩ := half_entry c w k
  exact ⟨by rw [← hre]; exact hword 0 (by omega), by rw [← him]; exact hword 4 (by omega), by omega⟩

end Sys2Proof.Machine
end

section
/-! The opcode map (30_encoding.md R71): a row is selected by the bits its mask keeps; and the words that no row
takes, which the engine only reports (30 R73, R74). -/

namespace Sys2Proof

/-! ### The masks of the opcode map -/

/-- The low mask keeps `OPC` (30 R67). -/
theorem and_lowMask_eq_iff (w : Word) {k : Nat} (hk : k < 2 ^ 8) :
    w &&& 0x000000FF#32 = BitVec.ofNat 32 k ↔ opcOf w = k := by
  have hmask : (w &&& 0x000000FF#32).toNat = opcOf w := Nat.and_two_pow_sub_one_eq_mod w.toNat 8
  rw [← BitVec.toNat_inj, hmask, BitVec.toNat_ofNat, Nat.mod_eq_of_lt (by omega)]

/-- The full mask keeps the whole word, so it also requires `IMM24` to be 0 (30 R74). -/
theorem and_fullMask_eq_iff (w : Word) {k : Nat} (hk : k < 2 ^ 8) :
    w &&& 0xFFFFFFFF#32 = BitVec.ofNat 32 k ↔ opcOf w = k ∧ imm24Of w = 0 := by
  have hmask : w &&& 0xFFFFFFFF#32 = w := BitVec.and_allOnes
  rw [hmask, ← BitVec.toNat_inj, BitVec.toNat_ofNat, Nat.mod_eq_of_lt (by omega), opcOf, imm24Of]
  omega

theorem extract_imm24_eq_zero_iff (w : Word) : w.extractLsb' 8 24 = 0#24 ↔ imm24Of w = 0 := by
  rw [← BitVec.toNat_inj, extract_imm24]
  rfl

/-! ### The rows of the opcode map -/

/-- The opcodes in use are `0x00` to `0x06` (30 R71). -/
theorem Instr.opcode_lt (i : Instr) : i.opcode < 7 := by cases i <;> simp [Instr.opcode]

/-- Only `CONFIG` and `BUILD` take an operand (30 R74). -/
theorem Instr.immediate_eq_zero {i : Instr} (hconfig : i.opcode ≠ 1) (hbuild : i.opcode ≠ 2) : i.immediate = 0 := by
  cases i with
  | config n => exact absurd rfl hconfig
  | build m => exact absurd rfl hbuild
  | _ => rfl

/-- The row of a command under the low mask: its opcode, with `IMM24` as the operand. -/
theorem decode_iff_lowMask (w : Word) (i : Instr) :
    decode w = .ok i ↔
      w &&& 0x000000FF#32 = BitVec.ofNat 32 i.opcode ∧ i.immediate = (w.extractLsb' 8 24).toNat := by
  have hopc := i.opcode_lt
  rw [decode_iff, and_lowMask_eq_iff w (by omega), extract_imm24, eq_comm (a := imm24Of w)]

/-- The row of a command without operand under the full mask: its opcode is the whole word. -/
theorem decode_iff_fullMask (w : Word) {i : Instr} (hi : i.immediate = 0) :
    decode w = .ok i ↔ w &&& 0xFFFFFFFF#32 = BitVec.ofNat 32 i.opcode := by
  have hopc := i.opcode_lt
  rw [decode_iff, and_fullMask_eq_iff w (by omega), hi]

/-! ### Illegal words -/

theorem decode_reserved_ne_ok {w : Word} (h : 7 ≤ opcOf w) (i : Instr) : decode w ≠ .ok i := by
  intro hd
  obtain ⟨hopc, -⟩ := (decode_iff w i).mp hd
  have := i.opcode_lt
  omega

theorem decode_unused_imm24_ne_ok {w : Word} (himm : imm24Of w ≠ 0) (hconfig : opcOf w ≠ 1) (hbuild : opcOf w ≠ 2)
    (i : Instr) : decode w ≠ .ok i := by
  intro hd
  obtain ⟨hopc, hop⟩ := (decode_iff w i).mp hd
  rw [hopc] at hconfig hbuild
  exact himm (hop.trans (Instr.immediate_eq_zero hconfig hbuild))

namespace Machine

/-- The engine's step on a word that is no command (30 R72). -/
theorem step_illegal {s : State} (hs : EngineTurn s) (h : ∀ i, decode s.regs.cmd ≠ .ok i) :
    step s = .next (execIllegal s) := by
  rw [step_engineTurn hs, engineStep]
  cases hd : decode s.regs.cmd with
  | ok i => exact absurd hd (h i)
  | error e => rfl

/-- The whole effect of an illegal word (30 R73). -/
theorem execIllegal_eq (s : State) :
    execIllegal s = { s with regs.result := 0xFFFFFFFF#32, status.busy := false } := rfl

end Machine

open Machine

/-! ### The obligations -/

/-- Settles O3: each row is the two fields of its command, seen through the row's mask, and no row has a reserved
opcode. -/
theorem wordSelectsOpcodeMapRow : Obligations.WordSelectsOpcodeMapRow := by
  intro w
  refine ⟨decode_iff_fullMask w rfl, fun n => decode_iff_lowMask w (.config n),
    fun m => decode_iff_lowMask w (.build m), decode_iff_fullMask w rfl, decode_iff_fullMask w rfl,
    decode_iff_fullMask w rfl, decode_iff_fullMask w rfl, fun hres => ?_⟩
  rw [extract_opc] at hres
  exact decode_reserved_ne_ok hres

/-- Settles O7: a word of either illegal form decodes to no command, so the engine executes `finish(-1)`; `CONFIG`
and `BUILD` are decided by the opcode alone. -/
theorem illegalWordOnlyReports : Obligations.IllegalWordOnlyReports := by
  intro s hs
  simp only [extract_opc, extract_imm24, ne_eq, extract_imm24_eq_zero_iff]
  refine ⟨fun hillegal => ?_, fun hconfig => (decode_iff _ _).mpr ⟨hconfig, rfl⟩,
    fun hbuild => (decode_iff _ _).mpr ⟨hbuild, rfl⟩⟩
  rw [← execIllegal_eq]
  rcases hillegal with hres | ⟨himm, hopc⟩
  · exact step_illegal hs (decode_reserved_ne_ok hres)
  · exact step_illegal hs (decode_unused_imm24_ne_ok himm (by omega) (by omega))

end Sys2Proof
end

section
/-! The filter commands (40_ols_commands.md): the work buffer `APPLY` transforms, the history that `BUILD` keeps,
`RESTART` zeroes and `APPLY` saves. -/

namespace Sys2Proof

/-- The encoding of a command without operand: its opcode with `IMM24 = 0`, and no other word (30 R71, R74). -/
theorem encodedWithoutOperand {opc : BitVec 8} {i : Instr} (hopc : opc.toNat = i.opcode)
    (hconfig : i.opcode ≠ 1) (hbuild : i.opcode ≠ 2) : Machine.EncodedWithoutOperand opc i := by
  intro w hw
  have hword : opcOf w = i.opcode := by rw [← extract_opc, hw, hopc]
  rw [ne_eq, extract_imm24_eq_zero_iff]
  refine ⟨fun himm => ?_, fun himm => ?_⟩
  · rw [decode_iff, Instr.immediate_eq_zero hconfig hbuild]
    exact ⟨hword, himm⟩
  · exact decode_unused_imm24_ne_ok himm (hword ▸ hconfig) (hword ▸ hbuild)

/-- The saved history is the input half (40 R95). -/
theorem saveHistory_getElem?_front {N k : Nat} {v : List Sample} (hv : v.length = 2 * N) (hk : k < N) :
    (saveHistory N v)[k]? = v[N + k]? := by
  have hlen := saveHistory_length N v hv
  rw [getElem?_eq_entry (by omega), entry_saveHistory_front hk, getElem?_eq_entry (by omega)]

namespace Machine

/-! ### The work buffer of `APPLY` -/

theorem firstCallWork_of_not_first {s : State} (h : s.status.first = false) : firstCallWork s = s.mem.work :=
  if_neg (by simp [h])

theorem firstCallWork_getElem?_front {s : State} {k : Nat} (hk : k < s.blockSize) :
    (firstCallWork s)[k]? = if s.status.first then some CZERO else s.mem.work[k]? := by
  cases hf : s.status.first
  · rw [firstCallWork_of_not_first hf]; rfl
  · rw [firstCallWork_of_first hf, zeroHistory_getElem?_front hk]; rfl

/-- The first call leaves the input half alone (40 R93). -/
theorem firstCallWork_getElem?_back {s : State} {k : Nat} (hk : s.blockSize ≤ k) :
    (firstCallWork s)[k]? = s.mem.work[k]? := by
  cases hf : s.status.first
  · rw [firstCallWork_of_not_first hf]
  · rw [firstCallWork_of_first hf, zeroHistory_getElem?_back hk]

/-- On a history that is already zero, `FIRST` makes no difference (40 R91). -/
theorem firstCallWork_of_zeroed {s : State} (h : zeroHistory s.blockSize s.mem.work = s.mem.work) :
    firstCallWork s = s.mem.work := by
  cases hf : s.status.first
  · exact firstCallWork_of_not_first hf
  · rw [firstCallWork_of_first hf, h]

theorem firstCallWork_congr {s t : State} (hblk : t.regs.blkSize = s.regs.blkSize)
    (hfirst : t.status.first = s.status.first) (hwork : t.mem.work = s.mem.work) :
    firstCallWork t = firstCallWork s := by
  rw [firstCallWork, firstCallWork, State.blockSize, State.blockSize, hblk, hfirst, hwork]

/-! ### `BUILD` -/

theorem exec_build_eq {m : Nat} {s t : State} (h : exec (.build m) s = .next t) : t = buildWith Config.num m s := by
  cases h; rfl

@[simp] theorem buildWith_work (num : Numerics) (m : Nat) (s : State) :
    (buildWith num m s).mem.work = s.mem.work := by
  unfold buildWith
  split <;> rfl

@[simp] theorem buildWith_blkSize (num : Numerics) (m : Nat) (s : State) :
    (buildWith num m s).regs.blkSize = s.regs.blkSize := by
  unfold buildWith
  split <;> rfl

@[simp] theorem buildWith_blockSize (num : Numerics) (m : Nat) (s : State) :
    (buildWith num m s).blockSize = s.blockSize := by
  rw [State.blockSize, State.blockSize, buildWith_blkSize]

/-- Settles O13: `BUILD` keeps what the work buffer of `APPLY` is made of, so only the profile is new to `APPLY`. -/
theorem buildKeepsHistory : Obligations.BuildKeepsHistory := by
  intro m s t u hsound hbuild happly
  obtain rfl := exec_build_eq hbuild
  obtain rfl := exec_apply_eq happly
  have hfirst : (buildWith Config.num m s).status.first = s.status.first := by rw [buildWith_status]
  have hblk := buildWith_blockSize Config.num m s
  have hwf := buildWith_wf Config.num (m := m) hsound.fft_eq hsound.sizes
  refine ⟨buildWith_work _ m s, hfirst, fun j hj => ?_⟩
  rw [applyWith_out (hblk.symm ▸ hwf) (hblk.symm ▸ hj), hblk,
    firstCallWork_congr (buildWith_blkSize _ m s) hfirst (buildWith_work _ m s)]
  rfl

/-! ### `RESTART` -/

/-- After `RESTART` the history is zero: zeroing it again does nothing. -/
theorem exec_restart_zeroed {s t : State} (h : exec .restart s = .next t) :
    zeroHistory t.blockSize t.mem.work = t.mem.work := by
  cases h
  exact zeroHistory_twice _ _

/-- `RESTART` twice is the same as once (40 R91). -/
theorem exec_restart_twice {s t : State} (h : exec .restart s = .next t) : exec .restart t = .next t := by
  have hzero := exec_restart_zeroed h
  rw [exec, execRestart, hzero]
  cases h; rfl

/-- When the history is zero, the memories `APPLY` leaves do not depend on `FIRST` (40 R91). -/
theorem applyWith_mem_of_zeroed (num : Numerics) (b : Bool) {s : State}
    (h : zeroHistory s.blockSize s.mem.work = s.mem.work) :
    (applyWith num { s with status.first := b }).mem = (applyWith num s).mem := by
  have hb : firstCallWork { s with status.first := b } = s.mem.work := firstCallWork_of_zeroed h
  rw [applyWith, applyWith, hb, firstCallWork_of_zeroed h]
  rfl

/-- Settles O14: the zeroed history is a fixed point of `zeroHistory`, which is all that a second `RESTART` and the
first call of `APPLY` do to it. -/
theorem restartZeroesHistory : Obligations.RestartZeroesHistory := by
  refine ⟨encodedWithoutOperand rfl (by decide) (by decide), fun s => ?_⟩
  obtain ⟨t, ht, -⟩ := exec_next .restart s
  have htwice := exec_restart_twice ht
  have happly : ∀ (b : Bool) (u v : State), exec .apply t = .next u →
      exec .apply { t with status.first := b } = .next v → u.mem = v.mem := by
    intro b u v hu hv
    rw [exec_apply_eq hu, exec_apply_eq hv, applyWith_mem_of_zeroed _ b (exec_restart_zeroed ht)]
  refine ⟨t, ht, ?_⟩
  cases ht
  exact ⟨rfl, rfl, rfl, fun _ hk => zeroHistory_getElem?_front hk, fun _ hk => zeroHistory_getElem?_back hk,
    rfl, rfl, htwice, happly⟩

/-! ### `APPLY` -/

/-- The history `APPLY` saves is the input half as it stood before, whether or not this is the first call (40 R95). -/
theorem applyWith_work_front (num : Numerics) {s : State} (hwork : s.mem.work.length = 2 * s.blockSize) {k : Nat}
    (hk : k < s.blockSize) : (applyWith num s).mem.work[k]? = s.mem.work[s.blockSize + k]? :=
  (saveHistory_getElem?_front (firstCallWork_length hwork) hk).trans (firstCallWork_getElem?_back (by omega))

theorem applyWith_work_back (num : Numerics) {s : State} {k : Nat} (hk : s.blockSize ≤ k) :
    (applyWith num s).mem.work[k]? = s.mem.work[k]? :=
  (saveHistory_getElem?_back hk).trans (firstCallWork_getElem?_back hk)

/-- Settles O15: the work buffer after the first-call zeroing is what is transformed, and its input half, which is the
old one, is what is saved. -/
theorem applyFiltersAndSaves : Obligations.ApplyFiltersAndSaves := by
  refine ⟨encodedWithoutOperand rfl (by decide) (by decide), fun s hsound => ?_⟩
  obtain ⟨-, -, hwork, -⟩ := hsound.sizes
  obtain ⟨-, -, -, hout⟩ := applyWith_wf Config.num hsound.sizes
  exact ⟨applyWith Config.num s, rfl, rfl, rfl, rfl,
    ⟨firstCallWork s, firstCallWork_length hwork, fun _ hk => firstCallWork_getElem?_front hk,
      fun _ hk => firstCallWork_getElem?_back hk, hout, fun _ hj => applyWith_out hsound.sizes hj⟩,
    fun _ hk => applyWith_work_front _ hwork hk, fun _ hk => applyWith_work_back _ hk, rfl, rfl⟩

end Machine

end Sys2Proof
end

section
/-! The passband commands (41_passband_commands.md): what `validPB` compares, the two outcomes of `SET_PASSBAND`, and
the edges that `GET_PASSBAND` returns. -/

namespace Sys2Proof

/-! ### Comparisons of real values as comparisons of scaled integers -/

/-- Dividing by `2^149` keeps the order. -/
theorem intCast_div_scale_lt_iff {x y : ℤ} : (x : ℝ) / 2 ^ 149 < y / 2 ^ 149 ↔ x < y := by
  rw [div_lt_div_iff_of_pos_right (by positivity), Int.cast_lt]

/-- An edge lies beyond half the sample rate (41 R105). -/
theorem half_f32_lt_abs_f32_iff (fs w : Word) :
    f32 fs / 2 < |f32 w| ↔ f32Scaled fs < 2 * |f32Scaled w| := by
  have hdouble : 2 * |f32 w| = ((2 * |f32Scaled w| : ℤ) : ℝ) / 2 ^ 149 := by
    rw [f32, abs_div, abs_of_pos (by positivity : (0 : ℝ) < 2 ^ 149)]
    push_cast
    ring
  rw [div_lt_iff₀' two_pos, hdouble, f32, intCast_div_scale_lt_iff]

/-- The edges lie closer than the threshold (41 R105). -/
theorem f32_sub_f32_lt_iff (lo hi minBw : Word) :
    f32 hi - f32 lo < f32 minBw ↔ f32Scaled hi - f32Scaled lo < f32Scaled minBw := by
  rw [f32, f32, f32, ← sub_div, ← Int.cast_sub, intCast_div_scale_lt_iff]

/-! ### The clauses of `validPB`, in their order -/

section validPB
variable {fs minBw lo hi : Word}

theorem validPB_of_nonfinite (h : isFinite lo = false ∨ isFinite hi = false) :
    validPB fs minBw lo hi = .errRange := if_pos h

theorem validPB_of_beyond (hfinite : isFinite lo = true ∧ isFinite hi = true)
    (h : f32 fs / 2 < |f32 lo| ∨ f32 fs / 2 < |f32 hi|) : validPB fs minBw lo hi = .errRange := by
  rw [half_f32_lt_abs_f32_iff, half_f32_lt_abs_f32_iff] at h
  rw [validPB, if_neg (by simp [hfinite]), if_pos h]

/-- Finite edges within half the sample rate are decided by their distance. -/
theorem validPB_of_within (hfinite : isFinite lo = true ∧ isFinite hi = true)
    (hlo : |f32 lo| ≤ f32 fs / 2) (hhi : |f32 hi| ≤ f32 fs / 2) :
    validPB fs minBw lo hi = if f32Scaled hi - f32Scaled lo < f32Scaled minBw then .errClose else .ok := by
  rw [← not_lt, half_f32_lt_abs_f32_iff] at hlo hhi
  rw [validPB, if_neg (by simp [hfinite]), if_neg (not_or.mpr ⟨hlo, hhi⟩)]

theorem validPB_cases (fs minBw lo hi : Word) :
    validPB fs minBw lo hi = .ok ∨ validPB fs minBw lo hi = .errRange ∨ validPB fs minBw lo hi = .errClose := by
  unfold validPB
  split_ifs <;> simp

end validPB

/-- Settles O18: the machine's comparisons of scaled integers are those of the real values, clause by clause. -/
theorem passbandValidationIsExact : Obligations.PassbandValidationIsExact := by
  intro fs minBw lo hi _ _
  refine ⟨validPB_of_nonfinite, fun hlo hhi => ⟨validPB_of_beyond ⟨hlo, hhi⟩, fun hloIn hhiIn => ?_⟩⟩
  rw [validPB_of_within ⟨hlo, hhi⟩ hloIn hhiIn, ← not_lt, f32_sub_f32_lt_iff]
  exact ⟨fun hclose => if_pos hclose, fun hwide => if_neg hwide⟩

/-! ### The entries of a design and of the profile built from all of it -/

theorem Config.design_getElem? (lo hi fs : Word) {m k : Nat} (h : k < m) :
    (Config.design lo hi fs m)[k]? = some (Config.designAt lo hi fs m k) := by
  simp [Config.design, h]

/-- A profile built from all `n + 1` coefficients is built from them followed by `CZERO` (41 R106). -/
theorem build_zeroPad_getElem? (num : Numerics) {n k : Nat} {c : List Sample} (hc : c.length = n + 1) (hn : 1 ≤ n)
    (hk : k < 2 * n) : (num.build (2 * n) (zeroPad (2 * n) (n + 1) c))[k]? =
      some (num.buildAt (2 * n) (c ++ List.replicate (n - 1) CZERO) k) := by
  have hpad : zeroPad (2 * n) (n + 1) c = c ++ List.replicate (n - 1) CZERO := by
    rw [zeroPad_eq_append hc (by omega), show 2 * n - (n + 1) = n - 1 by omega]
  rw [getElem?_eq_entry (by simpa using hk), entry_build _ _ hk, hpad]

namespace Machine

/-! ### `SET_PASSBAND` -/

theorem exec_setPassband_accepted {s : State} (h : validPB Config.fs Config.minBw s.regs.arg0 s.regs.arg1 = .ok) :
    exec .setPassband s = .next (finish .ok (setPassband s.regs.arg0 s.regs.arg1 s)) := by
  rw [exec, execSetPassband, if_pos h]

theorem exec_setPassband_rejected {s : State} (h : validPB Config.fs Config.minBw s.regs.arg0 s.regs.arg1 ≠ .ok) :
    exec .setPassband s = .next (finish (validPB Config.fs Config.minBw s.regs.arg0 s.regs.arg1) s) := by
  rw [exec, execSetPassband, if_neg h]

section setPassband
variable (lo hi : Word) {s : State} (hs : s.Sound)
include hs

/-- `NTAPS` does not wrap: `N + 1` is at most `2*NMAX` (00 R5). -/
theorem setPassband_nTaps_toNat : (setPassband lo hi s).regs.nTaps.toNat = s.blockSize + 1 := by
  have hmax := hs.block_le
  have hpos := isPow2_pos hs.block_pow2
  exact toNat_ofNat_size (by omega)

theorem setPassband_profile_getElem? {k : Nat} (hk : k < 2 * s.blockSize) :
    (setPassband lo hi s).mem.profile[k]? = some (Config.num.buildAt (2 * s.blockSize)
      ((setPassband lo hi s).mem.coef ++ List.replicate (s.blockSize - 1) CZERO) k) := by
  rw [setPassband, hs.fft_eq]
  exact build_zeroPad_getElem? Config.num (Config.design_length ..) (isPow2_pos hs.block_pow2) hk

end setPassband

/-- Settles O17: an accepted passband is read off `setPassband`, entry by entry; a rejected one is only reported. -/
theorem setPassbandDesignsOrRejects : Obligations.SetPassbandDesignsOrRejects := by
  refine ⟨encodedWithoutOperand rfl (by decide) (by decide), fun s hsound =>
    ⟨fun hok => ?accepted, fun hrange => ?range, fun hclose => ?close, validPB_cases ..⟩⟩
  case accepted =>
    exact ⟨_, exec_setPassband_accepted hok, rfl, setPassband_nTaps_toNat s.regs.arg0 s.regs.arg1 hsound, rfl, rfl,
      setPassband_wf hsound.fft_eq hsound.sizes,
      fun _ hk => Config.design_getElem? _ _ _ (Nat.lt_succ_of_le hk),
      fun _ hk => setPassband_profile_getElem? _ _ hsound hk, rfl, rfl⟩
  case range =>
    rw [exec_setPassband_rejected (by simp [hrange]), hrange]
    rfl
  case close =>
    rw [exec_setPassband_rejected (by simp [hclose]), hclose]
    rfl

/-! ### `GET_PASSBAND` -/

theorem exec_getPassband_res {s t : State} (h : exec .getPassband s = .next t) :
    t.regs.res0 = s.regs.pbLo ∧ t.regs.res1 = s.regs.pbHi := by
  cases h
  exact ⟨rfl, rfl⟩

/-- `BUILD` does not change the passband (41 R110). -/
@[simp] theorem buildWith_pbLo (num : Numerics) (m : Nat) (s : State) :
    (buildWith num m s).regs.pbLo = s.regs.pbLo := by
  unfold buildWith
  split <;> rfl

@[simp] theorem buildWith_pbHi (num : Numerics) (m : Nat) (s : State) :
    (buildWith num m s).regs.pbHi = s.regs.pbHi := by
  unfold buildWith
  split <;> rfl

theorem exec_config_valid {n : Nat} (s : State) (h : validBlockSize n = true) :
    exec (.config n) s = .next (finish .ok (rebuild n s)) := by
  rw [exec, execConfig, if_pos h]

/-- Settles O19: `GET_PASSBAND` returns `PB_LO` and `PB_HI` as the command or reset before it left them. -/
theorem getPassbandReturnsEdgesInForce : Obligations.GetPassbandReturnsEdgesInForce := by
  refine ⟨encodedWithoutOperand rfl (by decide) (by decide), fun _ => rfl,
    fun n s t u hpow hmax hconfig hget => ?config, fun s u hget => exec_getPassband_res hget,
    fun s t u hreject hset hget => ?rejected, fun m s t u hbuild hget => ?build,
    fun s t u haccept hset hget => ?accepted⟩
  case config =>
    have hvalid : validBlockSize n = true := (validBlockSize_iff n).mpr ⟨(isPow2_iff n).mpr hpow, hmax⟩
    cases (exec_config_valid s hvalid).symm.trans hconfig
    exact exec_getPassband_res hget
  case rejected =>
    cases (exec_setPassband_rejected hreject).symm.trans hset
    exact exec_getPassband_res hget
  case build =>
    obtain rfl := exec_build_eq hbuild
    obtain ⟨hlo, hhi⟩ := exec_getPassband_res hget
    rw [buildWith_pbLo] at hlo
    rw [buildWith_pbHi] at hhi
    exact ⟨buildWith_pbLo .., buildWith_pbHi .., hlo, hhi⟩
  case accepted =>
    cases (exec_setPassband_accepted haccept).symm.trans hset
    exact exec_getPassband_res hget

end Machine

end Sys2Proof
end

section
/-! The workspace commands (42_workspace_commands.md). -/

namespace Sys2Proof

namespace Machine

theorem exec_nop (s : State) : exec .nop s = .next (finish .ok s) := by
  rw [exec, execNop]

/-- The whole effect of ending a command with success: `RESULT` is 0 and `BUSY` is 0 (00 R10). -/
theorem finish_ok_eq (s : State) :
    finish .ok s = { s with regs.result := 0x00000000#32, status.busy := false } := rfl

/-- Settles O10: the opcode field of `NOP` is 0 with no operand, and its execution is `finish(0)`. -/
theorem nopOnlyReports : Obligations.NopOnlyReports := by
  refine ⟨encodedWithoutOperand rfl (by decide) (by decide), fun s => ?_⟩
  rw [exec_nop, finish_ok_eq]

end Machine

end Sys2Proof
end

section
/-! How a command ends (60_exceptions.md): the status code of each and its cause (60 R119), the atomicity of a
rejection (60 R120), and the sticky protocol fault (60 R124). -/

namespace Sys2Proof

section validPB
variable {fs minBw lo hi : Word}

theorem validPB_eq_errRange_iff : validPB fs minBw lo hi = .errRange ↔
    isFinite lo = false ∨ isFinite hi = false ∨ f32 fs / 2 < |f32 lo| ∨ f32 fs / 2 < |f32 hi| := by
  rw [half_f32_lt_abs_f32_iff, half_f32_lt_abs_f32_iff, ← or_assoc]
  unfold validPB
  split_ifs <;> simp [*]

theorem validPB_eq_errClose_iff : validPB fs minBw lo hi = .errClose ↔
    isFinite lo = true ∧ isFinite hi = true ∧ |f32 lo| ≤ f32 fs / 2 ∧ |f32 hi| ≤ f32 fs / 2 ∧
      f32 hi - f32 lo < f32 minBw := by
  by_cases hrange : validPB fs minBw lo hi = .errRange
  · rw [hrange]
    rw [validPB_eq_errRange_iff] at hrange
    refine ⟨nofun, fun ⟨hlo, hhi, hloIn, hhiIn, _⟩ => ?_⟩
    rcases hrange with h | h | h | h
    · simp [hlo] at h
    · simp [hhi] at h
    · exact absurd hloIn (not_le.mpr h)
    · exact absurd hhiIn (not_le.mpr h)
  · rw [validPB_eq_errRange_iff] at hrange
    simp only [not_or, Bool.not_eq_false, not_lt] at hrange
    obtain ⟨hlo, hhi, hloIn, hhiIn⟩ := hrange
    rw [validPB_of_within ⟨hlo, hhi⟩ hloIn hhiIn, f32_sub_f32_lt_iff]
    simp [hlo, hhi, hloIn, hhiIn]

theorem validPB_ne_errIllegal : validPB fs minBw lo hi ≠ .errIllegal := by
  rcases validPB_cases fs minBw lo hi with h | h | h <;> simp [h]

theorem validPB_ne_errNtaps : validPB fs minBw lo hi ≠ .errNtaps := by
  rcases validPB_cases fs minBw lo hi with h | h | h <;> simp [h]

end validPB

namespace Machine

/-! ### The branches of `CONFIG` and `BUILD` -/

theorem exec_config_invalid {n : Nat} (s : State) (h : validBlockSize n = false) :
    exec (.config n) s = .next (raiseFatal s) := by
  rw [exec, execConfig, if_neg (by simp [h])]

theorem exec_build_rejected {m : Nat} {s : State} (h : m < 1 ∨ m > s.blockSize + 1) :
    exec (.build m) s = .next (finish .errNtaps s) := by
  rw [exec, execBuild, buildWith, if_pos h]

theorem exec_build_accepted {m : Nat} {s : State} (h : ¬(m < 1 ∨ m > s.blockSize + 1)) :
    exec (.build m) s = .next (finish .ok { s with
      mem.profile := Config.num.build s.fftLength (zeroPad s.fftLength m s.mem.coef)
      regs.nTaps := BitVec.ofNat 32 m }) := by
  rw [exec, execBuild, buildWith, if_neg h]

/-! ### The code a command ends with -/

/-- The code with which a command ends when it does not stop the block (60 R119). -/
def execCode (i : Instr) (s : State) : StatusCode :=
  match i with
  | .build m => if m < 1 ∨ m > s.blockSize + 1 then .errNtaps else .ok
  | .setPassband => validPB Config.fs Config.minBw s.regs.arg0 s.regs.arg1
  | .nop | .config _ | .restart | .apply | .getPassband => .ok

/-- The code with which the word in `CMD` ends (60 R119, 30 R72). -/
def engineCode (s : State) : StatusCode :=
  match decode s.regs.cmd with
  | .ok i => execCode i s
  | .error _ => .errIllegal

/-- A command that does not stop the block ends with its code, and one with another code than 0 does nothing before
that (60 R120). -/
theorem exec_eq_finish {i : Instr} {s t : State} (h : exec i s = .next t) (hf : t.status.fatal = false) :
    ∃ u, t = finish (execCode i s) u ∧ (execCode i s ≠ .ok → u = s) := by
  cases i with
  | nop | restart | apply | getPassband => cases h; exact ⟨_, rfl, fun hne => absurd rfl hne⟩
  | config n =>
    rcases exec_config_cases h with ⟨-, rfl⟩ | ⟨-, rfl⟩
    · exact ⟨_, rfl, fun hne => absurd rfl hne⟩
    · cases hf
  | build m =>
    by_cases hm : m < 1 ∨ m > s.blockSize + 1
    · cases (exec_build_rejected hm).symm.trans h
      exact ⟨s, by rw [execCode, if_pos hm], fun _ => rfl⟩
    · cases (exec_build_accepted hm).symm.trans h
      exact ⟨_, by rw [execCode, if_neg hm], fun hne => absurd (if_neg hm) hne⟩
  | setPassband =>
    by_cases hok : validPB Config.fs Config.minBw s.regs.arg0 s.regs.arg1 = .ok
    · cases (exec_setPassband_accepted hok).symm.trans h
      exact ⟨_, by rw [execCode, hok], fun hne => absurd hok hne⟩
    · cases (exec_setPassband_rejected hok).symm.trans h
      exact ⟨s, rfl, fun _ => rfl⟩

/-- The engine's step, of an illegal word too. -/
theorem step_engine_eq_finish {s t : State} (hturn : EngineTurn s) (h : step s = .next t)
    (hf : t.status.fatal = false) : ∃ u, t = finish (engineCode s) u ∧ (engineCode s ≠ .ok → u = s) := by
  rw [step_engineTurn hturn, engineStep] at h
  unfold engineCode
  cases hd : decode s.regs.cmd with
  | ok i => rw [hd] at h; exact exec_eq_finish h hf
  | error e => rw [hd] at h; cases h; exact ⟨s, rfl, fun _ => rfl⟩

/-- Settles O25: a negative code is one other than 0, with which the engine's step is `finish` and nothing else. -/
theorem rejectionIsAtomic : Obligations.RejectionIsAtomic := by
  intro s t hturn h hf hneg
  obtain ⟨u, rfl, hu⟩ := step_engine_eq_finish hturn h hf
  rw [hu ((codeWord_neg_iff _).mp hneg)]
  rfl

/-! ### The cause of each code -/

theorem codeWord_injective : Function.Injective codeWord := by
  intro c d h
  cases c <;> cases d <;> revert h <;> decide

theorem execCode_ne_errIllegal (i : Instr) (s : State) : execCode i s ≠ .errIllegal := by
  cases i with
  | build m => rw [execCode]; split <;> decide
  | setPassband => exact validPB_ne_errIllegal
  | _ => simp [execCode]

/-- Only `SET_PASSBAND` ends with a code of `validPB` other than 0. -/
theorem execCode_eq_passband_iff {i : Instr} {s : State} {c : StatusCode} (hc : c = .errRange ∨ c = .errClose) :
    execCode i s = c ↔ i = .setPassband ∧ validPB Config.fs Config.minBw s.regs.arg0 s.regs.arg1 = c := by
  cases i with
  | setPassband => simp [execCode]
  | build m => rw [execCode]; rcases hc with rfl | rfl <;> split <;> simp
  | _ => rcases hc with rfl | rfl <;> simp [execCode]

theorem execCode_eq_errNtaps_iff {i : Instr} {s : State} :
    execCode i s = .errNtaps ↔ ∃ m, i = .build m ∧ (m = 0 ∨ s.blockSize + 1 < m) := by
  cases i with
  | build m => simp [execCode, or_iff_not_imp_left]
  | setPassband => simp [execCode, validPB_ne_errNtaps]
  | _ => simp [execCode]

theorem engineCode_eq_errIllegal_iff {s : State} :
    engineCode s = .errIllegal ↔ ∀ i, decode s.regs.cmd ≠ .ok i := by
  unfold engineCode
  cases decode s.regs.cmd with
  | ok i => simp [execCode_ne_errIllegal]
  | error e => simp

/-- Every code but that of an illegal word is the code of a command. -/
theorem engineCode_eq_iff {s : State} {c : StatusCode} (hc : c ≠ .errIllegal) :
    engineCode s = c ↔ ∃ i, decode s.regs.cmd = .ok i ∧ execCode i s = c := by
  unfold engineCode
  cases decode s.regs.cmd with
  | ok i => simp
  | error e => simp [hc.symm]

theorem engineCode_eq_passband_iff {s : State} {c : StatusCode} (hc : c = .errRange ∨ c = .errClose) :
    engineCode s = c ↔ decode s.regs.cmd = .ok .setPassband ∧
      validPB Config.fs Config.minBw s.regs.arg0 s.regs.arg1 = c := by
  rw [engineCode_eq_iff (by rcases hc with rfl | rfl <;> decide)]
  simp [execCode_eq_passband_iff hc]

theorem engineCode_eq_errNtaps_iff {s : State} : engineCode s = .errNtaps ↔
    ∃ m, decode s.regs.cmd = .ok (.build m) ∧ (m = 0 ∨ s.blockSize + 1 < m) := by
  rw [engineCode_eq_iff (by decide)]
  simp only [execCode_eq_errNtaps_iff]
  exact ⟨fun ⟨_, hd, m, hi, hm⟩ => ⟨m, hi ▸ hd, hm⟩, fun ⟨m, hd, hm⟩ => ⟨_, hd, m, rfl, hm⟩⟩

/-- Settles O26: `RESULT` is the word of the code the command ends with, no two codes have the same word, and each code
has its cause. -/
theorem resultCodeHasItsCause : Obligations.ResultCodeHasItsCause := by
  intro s t hturn h hf
  obtain ⟨u, rfl, -⟩ := step_engine_eq_finish hturn h hf
  have hword (c : StatusCode) : (finish (engineCode s) u).regs.result = codeWord c ↔ engineCode s = c :=
    codeWord_injective.eq_iff
  refine ⟨isStatusWord_codeWord _, (hword .errIllegal).trans engineCode_eq_errIllegal_iff, ?range, ?close,
    (hword .errNtaps).trans engineCode_eq_errNtaps_iff⟩
  case range =>
    rw [← validPB_eq_errRange_iff (minBw := Config.minBw)]
    exact (hword .errRange).trans (engineCode_eq_passband_iff (.inl rfl))
  case close =>
    rw [← validPB_eq_errClose_iff]
    exact (hword .errClose).trans (engineCode_eq_passband_iff (.inr rfl))

/-! ### The sticky protocol fault -/

/-- Recording a second fault changes nothing (60 R124). -/
theorem raiseProto_of_proto {s : State} (h : s.status.proto = true) : raiseProto s = s := by
  rw [raiseProto, ← h]

/-- With `PROTO = 1` a read, faulting or not, changes nothing but the number of values drawn (log 5). -/
theorem memRead_of_proto {s : State} (h : s.status.proto = true) (a n : Nat) :
    (memRead a n s).2 = { s with draws := (memRead a n s).2.draws } := by
  rcases memRead_cases a n s with ⟨v, hread⟩ | ⟨-, hread⟩ | ⟨-, hread⟩
  · rw [hread]
  · rw [hread]; rfl
  · rw [hread, raiseProto_of_proto h]; rfl

/-- No host access but reset clears `PROTO` (60 R124). -/
theorem hostAccess_keeps_proto {act : HostAct} {s t : State} (h : hostAccess act s = .next t)
    (hproto : s.status.proto = true) : t.status.proto = true ∨ act = .powerOnReset := by
  rcases hostAccess_cases h with ⟨a, n, -, -, rfl⟩ | ⟨a, n, v, -, -, rfl⟩ | ⟨-, rfl⟩ | ⟨hact, -⟩
  · left; rw [receive_status, memRead_of_proto hproto]; exact hproto
  · obtain ⟨-, -, -, -, hkeep⟩ := memWrite_keeps a n v s
    exact .inl (hkeep hproto)
  · left; rw [pollStatus_status]; exact hproto
  · exact .inr hact

/-- No command clears or sets `PROTO` (60 R124). -/
theorem exec_keeps_proto {i : Instr} {s t : State} (h : exec i s = .next t) : t.status.proto = s.status.proto := by
  obtain ⟨u, hu, -, -, -, hproto⟩ := exec_next i s
  cases hu.symm.trans h
  exact hproto

/-- A step from `PROTO = 1` leaves it 1 unless the host asserts reset (60 R124). -/
theorem step_keeps_proto {s t : State} (hproto : s.status.proto = true) (h : step s = .next t) :
    t.status.proto = true ∨ ∃ rest, HostTurn s ∧ s.host.script = .powerOnReset :: rest := by
  rcases step_cases h with ⟨-, -, rfl⟩ | ⟨-, ⟨i, -, hexec⟩ | ⟨e, -, rfl⟩⟩ |
    ⟨hturn, ⟨-, -, rfl⟩ | ⟨act, rest, hscript, hacc⟩⟩
  · exact .inl hproto
  · exact .inl ((exec_keeps_proto hexec).trans hproto)
  · exact .inl hproto
  · exact .inl hproto
  · rcases hostAccess_keeps_proto hacc hproto with hkeep | rfl
    · exact .inl hkeep
    · exact .inr ⟨rest, hturn, hscript⟩

/-- No command reads `PROTO`: with any value of it the outcome is the same in everything else (60 R124). -/
theorem exec_with_proto {i : Instr} {s t : State} (b : Bool) (h : exec i s = .next t) :
    exec i { s with status.proto := b } = .next { t with status.proto := b } := by
  cases i with
  | nop | restart | apply | getPassband => cases h; rfl
  | config n =>
    rcases exec_config_cases h with ⟨hvalid, rfl⟩ | ⟨hinvalid, rfl⟩
    · exact exec_config_valid _ hvalid
    · exact exec_config_invalid _ hinvalid
  | build m =>
    by_cases hm : m < 1 ∨ m > s.blockSize + 1
    · cases (exec_build_rejected hm).symm.trans h
      exact exec_build_rejected hm
    · cases (exec_build_accepted hm).symm.trans h
      exact exec_build_accepted hm
  | setPassband =>
    by_cases hok : validPB Config.fs Config.minBw s.regs.arg0 s.regs.arg1 = .ok
    · cases (exec_setPassband_accepted hok).symm.trans h
      exact exec_setPassband_accepted hok
    · cases (exec_setPassband_rejected hok).symm.trans h
      exact exec_setPassband_rejected hok

/-- Settles O29: recording the fault is idempotent, only reset clears it, and neither the engine's readiness nor any
command looks at it. -/
theorem protoIsSticky : Obligations.ProtoIsSticky := by
  refine ⟨fun _ _ => step_keeps_proto, fun s hproto => ⟨raiseProto_of_proto hproto, memRead_of_proto hproto,
    fun a n v hf h => ?_⟩, fun _ _ => rfl, fun _ _ _ => exec_with_proto⟩
  rcases h with hbusy | hform
  · rw [memWrite_while_busy a n v hf hbusy, raiseProto_of_proto hproto]
  · rw [memWrite_malformed v hf hform, raiseProto_of_proto hproto]

end Machine

end Sys2Proof
end

section
/-! The encoding (30_encoding.md R67, R69, R79): a word is its two fields, and a command's word has the command's. -/

namespace Sys2Proof

/-- A word is its two fields side by side (30 R67, R69). -/
theorem toNat_eq_fields (w : Word) : w.toNat = imm24Of w * 2 ^ 8 + opcOf w := (Nat.div_add_mod' _ _).symm

theorem Instr.encode_toNat {i : Instr} (h : i.WellFormed) : (encode i).toNat = i.immediate * 2 ^ 8 + i.opcode := by
  have hopc := i.opcode_lt
  exact Laws.encode_toNat _ _ h (by omega)

/-- Settles O1: the two fields of a command's word are its opcode and its operand. -/
theorem decodeInvertsEncode : Obligations.DecodeInvertsEncode := by
  intro i hi
  have hopc := i.opcode_lt
  rw [decode_iff, opcOf, imm24Of, Instr.encode_toNat hi]
  omega

/-- Settles O2: a word that decodes to a command has the command's two fields, which are all there is to a word. -/
theorem encodeInvertsDecode : Obligations.EncodeInvertsDecode := by
  intro w i hw
  obtain ⟨hopc, himm⟩ := (decode_iff w i).mp hw
  have hwf : i.WellFormed := himm.symm.trans_lt (imm24Of_lt w)
  refine ⟨hwf, BitVec.eq_of_toNat_eq ?_⟩
  rw [Instr.encode_toNat hwf, toNat_eq_fields w, hopc, himm]

/-- Settles O4: seventeen fixed words, each decoded. -/
theorem referenceWordsDecode : Obligations.ReferenceWordsDecode := by
  unfold Obligations.ReferenceWordsDecode
  decide

end Sys2Proof
end

section
/-! The invariant (10_state.md R42, 70_reset_and_hazards.md R136, 60_exceptions.md R125): it holds after reset and every
step keeps it. -/

namespace Sys2Proof.Machine

/-! ### What a block in operation keeps -/

namespace State.Sound
variable {s : State}

/-- `Sound` speaks of the registers and the memories alone. -/
theorem of_eq {t : State} (hs : s.Sound) (hregs : t.regs = s.regs) (hmem : t.mem = s.mem) : t.Sound := by
  obtain ⟨r, _, m, _, _, _, _⟩ := t
  obtain rfl : r = s.regs := hregs
  obtain rfl : m = s.mem := hmem
  exact { hs with }

theorem finish (hs : s.Sound) (c : StatusCode) : (finish c s).Sound :=
  { hs with result := isStatusWord_codeWord c }

/-- The two commands that build a profile keep `Sound`: from `m` of the coefficients `c`, with a valid passband. -/
theorem build (hs : s.Sound) {m : Nat} {c : List Sample} {lo hi : Word} (hpos : 1 ≤ m) (hle : m ≤ s.blockSize + 1)
    (hc : c.length = s.blockSize + 1) (hpb : validPB Config.fs Config.minBw lo hi = .ok) :
    State.Sound { s with
      mem.coef := c
      mem.profile := Config.num.build s.fftLength (zeroPad s.fftLength m c)
      regs.nTaps := BitVec.ofNat 32 m
      regs.pbLo := lo
      regs.pbHi := hi } := by
  have htaps : (BitVec.ofNat 32 m).toNat = m :=
    toNat_ofNat_size (by have := hs.block_le; have := isPow2_pos hs.block_pow2; omega)
  obtain ⟨-, -, hwork, hout⟩ := hs.sizes
  exact { hs with
    taps_pos := hpos.trans_eq htaps.symm
    taps_le := htaps.trans_le hle
    sizes := ⟨hc, (Numerics.build_length ..).trans hs.fft_eq, hwork, hout⟩
    profile_built := ⟨c, hc, by rw [htaps]; rfl⟩
    passband := hpb }

theorem putWindow (hs : s.Sound) {w : Window} (hw : w ≠ .profile) {v : List Sample}
    (hv : v.length = (s.mem.get w).length) : State.Sound { s with mem := s.mem.put w v } := by
  have hprofile : (s.mem.put w v).profile = s.mem.profile := Memory.get_put_other _ _ hw.symm
  exact { hs with
    sizes := Memory.put_wf w hs.sizes hv
    profile_built := by rw [hprofile]; exact hs.profile_built }

end State.Sound

theorem rebuild_sound {n : Nat} (hn : validBlockSize n = true) (s : State) : (finish .ok (rebuild n s)).Sound := by
  obtain ⟨hpow, hle⟩ := (validBlockSize_iff n).mp hn
  have hpos := isPow2_pos hpow
  have hblk : (finish .ok (rebuild n s)).blockSize = n := toNat_ofNat_size (by omega)
  have hfft : (finish .ok (rebuild n s)).fftLength = 2 * n := toNat_ofNat_size (by omega)
  have htaps : (finish .ok (rebuild n s)).regs.nTaps.toNat = n + 1 := toNat_ofNat_size (by omega)
  exact {
    block_pow2 := hblk.symm ▸ hpow
    block_le := hblk.symm ▸ hle
    fft_eq := by rw [hfft, hblk]
    taps_pos := by omega
    taps_le := by omega
    sizes := hblk.symm ▸ rebuild_wf n s
    profile_built := ⟨defaultCoef n, by rw [hblk, defaultCoef_length], by rw [hfft, htaps]; rfl⟩
    passband := Config.default_valid
    result := isStatusWord_codeWord .ok }

/-- The state after reset is what `CONFIG N_RESET` makes of it (70 R137, 42 R113). -/
theorem reset_eq_rebuild : State.reset = finish .ok (rebuild Config.nReset State.reset) := rfl

theorem reset_sound : State.reset.Sound := reset_eq_rebuild ▸ rebuild_sound validBlockSize_nReset State.reset

/-- A command that does not stop the block leaves it sound. -/
theorem exec_keeps_sound {i : Instr} {s t : State} (hs : s.Sound) (h : exec i s = .next t)
    (hf : t.status.fatal = false) : t.Sound := by
  obtain ⟨hcoef, -⟩ := hs.sizes
  cases i with
  | nop => cases h; exact hs.finish .ok
  | config n =>
    rcases exec_config_cases h with ⟨hn, rfl⟩ | ⟨-, rfl⟩
    · exact rebuild_sound hn s
    · cases hf
  | build m =>
    by_cases hm : m < 1 ∨ m > s.blockSize + 1
    · cases (exec_build_rejected hm).symm.trans h
      exact hs.finish .errNtaps
    · cases (exec_build_accepted hm).symm.trans h
      exact (hs.build (by omega) (by omega) hcoef hs.passband).finish .ok
  | restart =>
    cases h
    exact { hs with sizes := restart_wf hs.sizes, result := isStatusWord_codeWord .ok }
  | apply =>
    cases h
    exact { hs with sizes := applyWith_wf Config.num hs.sizes, result := isStatusWord_codeWord .ok }
  | setPassband =>
    by_cases hok : validPB Config.fs Config.minBw s.regs.arg0 s.regs.arg1 = .ok
    · cases (exec_setPassband_accepted hok).symm.trans h
      exact (hs.build (by omega) le_rfl (Config.design_length ..) hok).finish .ok
    · cases (exec_setPassband_rejected hok).symm.trans h
      exact hs.finish _
  | getPassband => cases h; exact { hs with result := isStatusWord_codeWord .ok }

/-- No host write makes the block unsound. -/
theorem memWrite_keeps_sound {s : State} (hs : s.Sound) (a n : Nat) (v : Word) : (memWrite a n v s).Sound := by
  rcases memWrite_cases a n v s with ⟨-, h⟩ | ⟨-, h⟩ | ⟨-, -, h | h | h | ⟨w, base, hw, -, h⟩⟩ <;> rw [h]
  · exact hs
  · exact hs.of_eq rfl rfl
  · exact { hs with }
  · exact { hs with }
  · exact { hs with }
  · exact hs.putWindow hw (setEntryHalf_length ..)

/-! ### What every step keeps -/

/-- The engine has a step exactly with a command in flight, no fatal fault, and initialisation over (60 R121). -/
theorem engineReady_iff (s : State) :
    engineReady s = true ↔ s.status.busy = true ∧ s.status.fatal = false ∧ s.initialising = false := by
  simp [engineReady, and_assoc]

/-- The invariant of a block out of reset. -/
theorem State.Inv.of_initialised {t : State} (hinit : t.initialising = false)
    (hsound : t.status.fatal = false → t.Sound) (hfatal : t.status.fatal = true → t.status.busy = false) : t.Inv where
  sound := fun ht => hsound ht.1
  init := fun h => by simp [hinit] at h
  fatal := fun h => ⟨hfatal h, hinit⟩

/-- `Inv` does not speak of `PROTO`, the host, or the model's counters. -/
theorem State.Inv.of_eq {s t : State} (hs : s.Inv) (hregs : t.regs = s.regs) (hmem : t.mem = s.mem)
    (hinit : t.initialising = s.initialising) (hbusy : t.status.busy = s.status.busy)
    (hfirst : t.status.first = s.status.first) (hfatal : t.status.fatal = s.status.fatal) : t.Inv where
  sound := fun ht => (hs.sound ⟨hfatal ▸ ht.1, hinit ▸ ht.2⟩).of_eq hregs hmem
  init := by rw [hinit, hbusy, hfirst, hfatal]; exact hs.init
  fatal := by rw [hinit, hbusy, hfatal]; exact hs.fatal

/-- A block that the host may access is in operation: initialisation shows as `BUSY` (70 R136). -/
theorem State.Inv.sound_of_idle {s : State} (hs : s.Inv) (hidle : Idle s) : s.initialising = false ∧ s.Sound := by
  obtain ⟨hfatal, hbusy⟩ := hidle
  have hinit : s.initialising = false := by
    by_contra h
    obtain ⟨hb, -, -⟩ := hs.init (by simpa using h)
    simp [hbusy] at hb
  exact ⟨hinit, hs.sound ⟨hfatal, hinit⟩⟩

theorem exec_keeps_inv {i : Instr} {s t : State} (hs : s.Inv) (hturn : EngineTurn s) (h : exec i s = .next t) :
    t.Inv := by
  obtain ⟨-, hfatal, hinit⟩ := (engineReady_iff s).mp hturn.2
  obtain ⟨u, hu, hbusy, -, hkeep, -⟩ := exec_next i s
  cases hu.symm.trans h
  exact .of_initialised (hkeep.trans hinit) (exec_keeps_sound (hs.sound ⟨hfatal, hinit⟩) h) fun _ => hbusy

theorem memRead_keeps_inv {s : State} (hs : s.Inv) (a n : Nat) : (memRead a n s).2.Inv :=
  hs.of_eq (memRead_regs ..) (memRead_mem ..) (memRead_initialising ..) (memRead_busy ..) (memRead_first ..)
    (memRead_fatal ..)

theorem memWrite_keeps_inv {s : State} (hs : s.Inv) (a n : Nat) (v : Word) : (memWrite a n v s).Inv := by
  rcases memWrite_cases a n v s with ⟨-, h⟩ | ⟨-, h⟩ | ⟨hfatal, hbusy, -⟩
  · rw [h]; exact hs
  · rw [h]; exact hs.of_eq rfl rfl rfl rfl rfl rfl
  · obtain ⟨hinit, hsound⟩ := hs.sound_of_idle ⟨hfatal, hbusy⟩
    obtain ⟨hkeepFatal, -, hkeepInit, -⟩ := memWrite_keeps a n v s
    refine .of_initialised (hkeepInit.trans hinit) (fun _ => memWrite_keeps_sound hsound a n v) fun h => ?_
    simp [hkeepFatal, hfatal] at h

theorem hostAccess_keeps_inv {act : HostAct} {s t : State} (hs : s.Inv) (h : hostAccess act s = .next t) : t.Inv := by
  rcases hostAccess_cases h with ⟨a, n, -, -, rfl⟩ | ⟨a, n, v, -, -, rfl⟩ | ⟨-, rfl⟩ | ⟨-, rfl⟩
  · exact (memRead_keeps_inv hs a n).of_eq rfl rfl rfl rfl rfl rfl
  · exact memWrite_keeps_inv hs a n v
  · exact hs.of_eq (pollStatus_regs _) (pollStatus_mem _) (pollStatus_initialising _) (by simp) (by simp) (by simp)
  · exact { sound := nofun, init := fun _ => ⟨rfl, rfl, rfl⟩, fatal := nofun }

/-- Settles O33: the state after reset is a rebuild at `N_RESET`. -/
theorem invAfterReset : Obligations.InvAfterReset := .of_initialised rfl (fun _ => reset_sound) nofun

/-- Settles O32: each kind of step keeps the invariant. -/
theorem everyStepKeepsInv : Obligations.EveryStepKeepsInv := by
  intro s t hs h
  rcases step_cases h with ⟨-, -, rfl⟩ | ⟨hturn, ⟨i, -, hexec⟩ | ⟨e, -, rfl⟩⟩ | ⟨-, ⟨-, -, rfl⟩ | ⟨act, rest, -, hacc⟩⟩
  · exact .of_initialised rfl (fun _ => reset_sound.of_eq rfl rfl) nofun
  · exact exec_keeps_inv hs hturn hexec
  · obtain ⟨-, hfatal, hinit⟩ := (engineReady_iff s).mp hturn.2
    exact .of_initialised hinit (fun _ => (hs.sound ⟨hfatal, hinit⟩).finish _) fun _ => rfl
  · exact hs
  · have htaken : (takeAccess rest s).Inv := hs.of_eq rfl rfl rfl rfl rfl rfl
    exact hostAccess_keeps_inv htaken hacc

end Sys2Proof.Machine
end

section
/-! The steps (20_memory.md R59, 60_exceptions.md R121): what each agent's step is, the life of a command, and the wait
for its end. -/

namespace Sys2Proof.Machine

/-! ### The agents' steps -/

theorem step_eq_exec {s : State} {i : Instr} (hturn : EngineTurn s) (hd : decode s.regs.cmd = .ok i) :
    step s = exec i s := by
  rw [step_engineTurn hturn, engineStep, hd]

theorem step_eq_hostAccess {s : State} {act : HostAct} {rest : List HostAct} (hturn : HostTurn s)
    (hscript : s.host.script = act :: rest) : step s = hostAccess act (takeAccess rest s) := by
  rw [step_hostTurn hturn, hostStep, hscript]

theorem step_eq_of_script_nil {s : State} (hturn : HostTurn s) (hscript : s.host.script = []) :
    step s = if s.status.fatal then .fault .stopped else .next s := by
  rw [step_hostTurn hturn, hostStep, hscript]

theorem hostTurn_of_not_ready {s : State} (hinit : s.initialising = false) (hready : engineReady s = false) :
    HostTurn s := by
  simp [HostTurn, hinit, hready]

/-- Settles O5: the engine's turn is its step, which runs what `CMD` decodes to. -/
theorem stepRunsDecodedCommand : Obligations.StepRunsDecodedCommand := fun _ _ => step_eq_exec

/-- Settles O6: the host's turn takes the first access off the script and makes it. -/
theorem hostAccessesInOrder : Obligations.HostAccessesInOrder := fun _ _ _ => step_eq_hostAccess

/-! ### `STATUS` -/

theorem Status.word_toNat_lt (f : Status) : f.word.toNat < 2 ^ 4 := by
  obtain ⟨b, r, l, p⟩ := f
  revert b r l p
  decide

/-- The four flags at their bits (10 R21). -/
theorem Status.word_flags (f : Status) : f.word.getLsbD 0 = f.busy ∧ f.word.getLsbD 1 = f.first ∧
    f.word.getLsbD 2 = f.fatal ∧ f.word.getLsbD 3 = f.proto := by
  obtain ⟨b, r, l, p⟩ := f
  revert b r l p
  decide

theorem statusWord_of_initialised {s : State} (h : s.initialising = false) : s.statusWord = s.status.word :=
  if_neg (by simp [h])

theorem statusWord_of_initialising {s : State} (h : s.initialising = true) : s.statusWord = 0x00000001#32 := if_pos h

/-- Settles O43: bits 31:4 are 0 because the word is less than `2^4`. -/
theorem statusWordFields : Obligations.StatusWordFields := by
  refine ⟨fun f => ?_, fun _ => statusWord_of_initialised, fun _ => statusWord_of_initialising⟩
  obtain ⟨hbusy, hfirst, hfatal, hproto⟩ := f.word_flags
  refine ⟨hbusy, hfirst, hfatal, hproto, fun i hi => Nat.testBit_lt_two_pow ?_⟩
  exact f.word_toNat_lt.trans_le (Nat.pow_le_pow_right two_pos hi)

/-! ### The accesses of the host -/

/-- `wait` stays on the script while bit 0 of `STATUS` is 1 (30 R81). -/
theorem hostAccess_wait (s : State) : hostAccess .wait s =
    .next (if s.statusWord.getLsbD 0 then { s with host.script := .wait :: s.host.script } else s) := by
  rw [hostAccess, memRead_status, pollStatus]

theorem receive_memRead (a n : Nat) (s : State) : receive (memRead a n s) = { (memRead a n s).2 with
    host := { script := s.host.script, received := (memRead a n s).1 :: s.host.received } } := by
  rw [receive, memRead_host]

/-- Settles O53, one kind of access at a time. -/
theorem hostAccessAnswers : Obligations.HostAccessAnswers := by
  intro s
  refine ⟨fun a n ha => ?read, fun a n v ha => if_pos ha, by rw [memRead_status], fun hbusy => ?polled,
    fun hidle => ?done, ⟨_, rfl, rfl, rfl, rfl⟩, fun a n v ha => ⟨if_neg (by omega), if_neg (by omega)⟩⟩
  case read => rw [← receive_memRead]; exact if_pos ha
  case polled => rw [memRead_status] at hbusy; rw [hostAccess_wait, if_pos hbusy]
  case done => rw [memRead_status] at hidle; rw [hostAccess_wait, if_neg (Bool.eq_false_iff.mp hidle)]

/-! ### The life of a command -/

/-- A whole-word write at a register of an idle block (20 R53). -/
theorem memWrite_register {s : State} {a : Nat} {r : RegName} (v : Word) (hs : Idle s)
    (hr : RegName.ofOffset a = some r) : memWrite a 4 v s = writeReg a v s := by
  obtain ⟨halign, hreg⟩ := RegName.ofOffset_bounds hr
  rw [memWrite_idle v hs halign, if_pos hreg]

/-- The engine's step has a next state, whatever the word in `CMD` (30 R72). -/
theorem step_engine_next {s : State} (hturn : EngineTurn s) : ∃ t, step s = .next t ∧ t.status.busy = false ∧
    t.host = s.host ∧ t.initialising = s.initialising := by
  rw [step_engineTurn hturn, engineStep]
  cases decode s.regs.cmd with
  | ok i =>
    obtain ⟨t, ht, hbusy, hhost, hinit, -⟩ := exec_next i s
    exact ⟨t, ht, hbusy, hhost, hinit⟩
  | error e => exact ⟨_, rfl, rfl, rfl, rfl⟩

/-- Settles O8: acceptance is a write of `CMD`; without the engine's step the host has its turn; and the engine's step
ends with a code unless it stops the block. -/
theorem commandLifeCycle : Obligations.CommandLifeCycle := by
  refine ⟨fun s w hidle => ?accepted, engineReady_iff, fun s hinit hready => ?host, fun s hturn => ?engine⟩
  case accepted =>
    rw [memWrite_register w hidle (r := .cmd) rfl]
    exact ⟨rfl, rfl, rfl, rfl⟩
  case host =>
    have hturn := hostTurn_of_not_ready hinit hready
    refine ⟨fun hnil hfatal => ?_, fun hnil hfatal => ?_, fun act rest => step_eq_hostAccess hturn⟩ <;>
      simp [step_eq_of_script_nil hturn hnil, hfatal]
  case engine =>
    obtain ⟨t, ht, hbusy, hhost, hinit⟩ := step_engine_next hturn
    obtain ⟨-, -, hs⟩ := (engineReady_iff s).mp hturn.2
    refine ⟨t, ht, hbusy, hhost, hinit.trans hs, fun hfatal => ?_⟩
    obtain ⟨u, rfl, -⟩ := step_engine_eq_finish hturn ht hfatal
    exact isStatusWord_codeWord _

/-- A poll while the command's time is not over only counts down the model's delay (log 4). -/
theorem step_poll {s : State} {rest : List HostAct} {d : Nat} (hready : engineReady s = true)
    (hscript : s.host.script = .wait :: rest) (hdelay : s.delay = d + 1) : step s = .next { s with delay := d } := by
  obtain ⟨hbusy, -, hinit⟩ := (engineReady_iff s).mp hready
  have hturn : HostTurn s := by simp [HostTurn, blockTurn, hdelay, hscript]
  have hbit : (takeAccess rest s).statusWord.getLsbD 0 = true := by
    rw [statusWord_of_initialised (s := takeAccess rest s) hinit, takeAccess_status, s.status.word_flags.1, hbusy]
  rw [step_eq_hostAccess hturn hscript, hostAccess_wait, if_pos hbit, takeAccess_script, ← hscript, takeAccess, hdelay]
  rfl

theorem run_succ {M : Host.Core} {s t : M.State} (k : Nat) (h : M.step s = .next t) : M.run (k + 1) s = M.run k t := by
  rw [Host.Core.run, h]

/-- Settles O9, by induction on the delay: each poll takes one off it, and at 0 it is the engine's turn. -/
theorem waitReachesEngineTurn : Obligations.WaitReachesEngineTurn := by
  intro s rest hready hscript
  induction hdelay : s.delay generalizing s with
  | zero => exact ⟨0, le_rfl, s, rfl, ⟨by simp [blockTurn, hdelay], hready⟩, rfl, rfl, rfl, rfl⟩
  | succ d ih =>
    obtain ⟨k, hk, u, hrun, hu⟩ := ih { s with delay := d } hready hscript rfl
    exact ⟨k + 1, by omega, u, (run_succ k (step_poll hready hscript hdelay)).trans hrun, hu⟩

/-! ### The fatal stop -/

theorem validBlockSize_eq_false_iff (n : Nat) :
    validBlockSize n = false ↔ ¬((∃ k, n = 2 ^ k) ∧ n ≤ Config.nMax) := by
  rw [← Bool.not_eq_true, validBlockSize_iff, isPow2_iff]

/-- Only `CONFIG` with an invalid block size stops the block (60 R125). -/
theorem exec_fatal_iff {i : Instr} {s t : State} (hs : s.status.fatal = false) (h : exec i s = .next t) :
    t.status.fatal = true ↔ ∃ n, i = .config n ∧ validBlockSize n = false := by
  cases i with
  | config n =>
    rcases exec_config_cases h with ⟨hn, rfl⟩ | ⟨hn, rfl⟩
    · simp [hn, rebuild, hs]
    · simp [hn]
  | build m => cases h; simp [hs]
  | setPassband => cases h; split <;> simp [setPassband, hs]
  | nop | restart | apply | getPassband => cases h; simp [applyWith, hs]

/-- No host access stops the block (60 R125). -/
theorem hostAccess_fatal {act : HostAct} {s t : State} (hs : s.status.fatal = false) (h : hostAccess act s = .next t) :
    t.status.fatal = false := by
  rcases hostAccess_cases h with ⟨a, n, -, -, rfl⟩ | ⟨a, n, v, -, -, rfl⟩ | ⟨-, rfl⟩ | ⟨-, rfl⟩
  · simp [hs]
  · rw [(memWrite_keeps a n v s).1, hs]
  · simp [hs]
  · rfl

theorem HostTurn.not_engineTurn {s : State} (h : HostTurn s) : ¬EngineTurn s := fun he => h ⟨he.1, .inr he.2⟩

/-- Settles O27: of the engine's steps only that of an invalid `CONFIG` sets `FATAL`, and no other step does. -/
theorem onlyInvalidConfigIsFatal : Obligations.OnlyInvalidConfigIsFatal := by
  intro s t hs h
  simp only [← validBlockSize_eq_false_iff]
  rcases step_cases h with ⟨-, hinit, rfl⟩ | ⟨hturn, ⟨i, hd, hexec⟩ | ⟨e, hd, rfl⟩⟩ |
    ⟨hturn, ⟨-, -, rfl⟩ | ⟨act, rest, -, hacc⟩⟩
  · have hnot : ¬EngineTurn s := fun he => by simp [((engineReady_iff s).mp he.2).2.2] at hinit
    simp [hnot]
  · rw [exec_fatal_iff hs hexec, hd]
    simp only [Except.ok.injEq]
    exact (and_iff_right hturn).symm
  · simp [execIllegal, hs, hd]
  · simp [hs, hturn.not_engineTurn]
  · simp [hostAccess_fatal (s := takeAccess rest s) hs hacc, hturn.not_engineTurn]

/-- A read of a stopped block records nothing and changes no element (60 R126). -/
theorem memRead_status_of_fatal {s : State} (h : s.status.fatal = true) (a n : Nat) :
    (memRead a n s).2.status = s.status := by
  rcases memRead_cases a n s with ⟨v, hr⟩ | ⟨-, hr⟩ | ⟨hf, -⟩
  · rw [hr]
  · rw [hr, anyWord_status]
  · simp [h] at hf

theorem memWrite_of_fatal {s : State} (h : s.status.fatal = true) (a n : Nat) (v : Word) : memWrite a n v s = s :=
  if_pos h

/-- Of the accesses to a stopped block only reset changes an element of it. -/
theorem hostAccess_of_fatal {act : HostAct} {s t : State} (hs : s.status.fatal = true)
    (h : hostAccess act s = .next t) : (t.status = s.status ∧ t.regs = s.regs ∧ t.mem = s.mem ∧
      t.initialising = s.initialising) ∨ (act = .powerOnReset ∧ t.initialising = true) := by
  rcases hostAccess_cases h with ⟨a, n, -, -, rfl⟩ | ⟨a, n, v, -, -, rfl⟩ | ⟨-, rfl⟩ | ⟨hact, rfl⟩
  · left; simp [memRead_status_of_fatal hs]
  · left; simp [memWrite_of_fatal hs]
  · left; simp
  · right; exact ⟨hact, rfl⟩

/-- Settles O28: with no step of the engine, every step is an access of the host, and only reset changes anything. -/
theorem fatalBlockOnlyResets : Obligations.FatalBlockOnlyResets := by
  intro s hs hinit
  have hready : engineReady s = false := by simp [engineReady, hs]
  refine ⟨memWrite_of_fatal hs, memRead_id s, by rw [memRead_status, statusWord_of_initialised hinit],
    fun a n => ⟨memRead_regs .., memRead_status_of_fatal hs a n, memRead_mem ..⟩, hready, fun t h => ?_⟩
  have hturn := hostTurn_of_not_ready hinit hready
  cases hscript : s.host.script with
  | nil => simp [step_eq_of_script_nil hturn hscript, hs] at h
  | cons act rest =>
    rw [step_eq_hostAccess hturn hscript] at h
    rcases hostAccess_of_fatal (s := takeAccess rest s) hs h with ⟨hstatus, hregs, hmem, hkeep⟩ | ⟨rfl, hreset⟩
    · exact .inl ⟨hstatus, hregs, hmem, hkeep.trans hinit⟩
    · exact .inr ⟨rest, rfl, hreset⟩

end Sys2Proof.Machine
end

section
/-! Who writes what (10_state.md sections 2 and 3): the elements a command may change, and those a host access may. -/

namespace Sys2Proof.Machine

/-! ### The commands -/

/-- What each command may change, of the registers other than `CMD`, `ARG0`, `ARG1` and `RESULT` and of the memories. -/
theorem exec_writers {i : Instr} {s t : State} (h : exec i s = .next t) :
    (t.regs.blkSize ≠ s.regs.blkSize ∨ t.regs.fftLen ≠ s.regs.fftLen → ∃ n, i = .config n) ∧
    (t.regs.nTaps ≠ s.regs.nTaps ∨ t.mem.profile ≠ s.mem.profile →
      (∃ m, i = .build m) ∨ i = .setPassband ∨ ∃ n, i = .config n) ∧
    (t.regs.pbLo ≠ s.regs.pbLo ∨ t.regs.pbHi ≠ s.regs.pbHi → i = .setPassband ∨ ∃ n, i = .config n) ∧
    (t.regs.res0 ≠ s.regs.res0 ∨ t.regs.res1 ≠ s.regs.res1 → i = .getPassband ∨ ∃ n, i = .config n) ∧
    (t.mem.coef ≠ s.mem.coef → i = .setPassband ∨ ∃ n, i = .config n) ∧
    (t.mem.work ≠ s.mem.work → i = .apply ∨ i = .restart ∨ ∃ n, i = .config n) ∧
    (t.mem.out ≠ s.mem.out → i = .apply ∨ ∃ n, i = .config n) := by
  cases i with
  | config n => simp
  | build m =>
    cases h
    unfold buildWith
    split <;> simp
  | setPassband =>
    cases h
    split <;> simp [setPassband]
  | nop | restart | apply | getPassband => cases h; simp [applyWith]

/-- No command that does not stop the block changes the registers that the host writes (10 R20, R31). -/
theorem exec_keeps_host_registers {i : Instr} {s t : State} (h : exec i s = .next t) (hf : t.status.fatal = false) :
    t.regs.cmd = s.regs.cmd ∧ t.regs.arg0 = s.regs.arg0 ∧ t.regs.arg1 = s.regs.arg1 := by
  cases i with
  | config n =>
    rcases exec_config_cases h with ⟨-, rfl⟩ | ⟨-, rfl⟩
    · exact ⟨rfl, rfl, rfl⟩
    · cases hf
  | build m =>
    cases h
    unfold buildWith
    split <;> exact ⟨rfl, rfl, rfl⟩
  | setPassband =>
    cases h
    split <;> exact ⟨rfl, rfl, rfl⟩
  | nop | restart | apply | getPassband => cases h; exact ⟨rfl, rfl, rfl⟩

/-! ### The host -/

/-- A location outside the REG region is half of a current entry. -/
theorem exists_entryAt {s : State} {a : Nat} (ha : 0x100 ≤ a) (h : s.wordAt a ≠ none) :
    ∃ w base, EntryAt s w base a := by
  cases hw : windowAt a with
  | none => exact absurd (wordAt_unmapped_region s ha hw) h
  | some p =>
    obtain ⟨w, base⟩ := p
    rw [wordAt_window s hw] at h
    exact ⟨w, base, hw, by by_contra hk; exact h (if_neg hk)⟩

/-- The three registers the host writes stand at `0x04`, `0x10` and `0x14` (10 R18). -/
theorem RegName.offset_of_writable {a : Nat} {r : RegName} (h : RegName.ofOffset a = some r) :
    (r = .cmd → a = 0x04) ∧ (r = .arg0 → a = 0x10) ∧ (r = .arg1 → a = 0x14) := by
  unfold RegName.ofOffset at h
  split at h <;> simp at h <;> subst h <;> simp

theorem writeReg_cases (a : Nat) (v : Word) (s : State) :
    writeReg a v s = raiseProto s ∨ (a = 0x04 ∧ writeReg a v s = acceptCommand v s) ∨
      (a = 0x10 ∧ writeReg a v s = { s with regs.arg0 := v }) ∨
      (a = 0x14 ∧ writeReg a v s = { s with regs.arg1 := v }) := by
  cases hr : RegName.ofOffset a with
  | none => exact .inl (writeReg_of_ofOffset_none v s hr)
  | some r =>
    obtain ⟨hcmd, harg0, harg1⟩ := RegName.offset_of_writable hr
    cases r with
    | cmd => exact .inr (.inl ⟨hcmd rfl, by rw [writeReg, hr]⟩)
    | arg0 => exact .inr (.inr (.inl ⟨harg0 rfl, by rw [writeReg, hr]⟩))
    | arg1 => exact .inr (.inr (.inr ⟨harg1 rfl, by rw [writeReg, hr]⟩))
    | _ => exact .inl (by rw [writeReg, hr])

/-- A write to a current entry of a window that the host may write (20 R53). -/
theorem memWrite_entry {s : State} {w : Window} {base a : Nat} (v : Word) (hs : Idle s) (ha : a % 4 = 0)
    (hw : w ≠ .profile) (he : EntryAt s w base a) : memWrite a 4 v s =
      { s with mem := s.mem.put w (setEntryHalf (s.mem.get w) (entryIndex a base) a v) } := by
  obtain ⟨hat, hk⟩ := he
  have hlow : ¬a < 0x100 := by have := windowAt_cases hat; omega
  rw [memWrite_idle v hs ha, if_neg hlow, hat]
  exact (if_neg hw).trans (if_pos hk)

/-- A write sets a register or an entry only at its own offset, with the whole width (20 R53). -/
theorem memWrite_offset_cases (a n : Nat) (v : Word) (s : State) :
    memWrite a n v s = s ∨ memWrite a n v s = raiseProto s ∨
    (n = 4 ∧ ((a = 0x04 ∧ memWrite a n v s = acceptCommand v s) ∨
      (a = 0x10 ∧ memWrite a n v s = { s with regs.arg0 := v }) ∨
      (a = 0x14 ∧ memWrite a n v s = { s with regs.arg1 := v }) ∨
      ∃ w base, w ≠ .profile ∧ EntryAt s w base a ∧
        memWrite a n v s = { s with mem := s.mem.put w (setEntryHalf (s.mem.get w) (entryIndex a base) a v) })) := by
  by_cases hfatal : s.status.fatal = true
  · exact .inl (memWrite_of_fatal hfatal a n v)
  rw [Bool.not_eq_true] at hfatal
  by_cases hbusy : s.status.busy = true
  · exact .inr (.inl (memWrite_while_busy a n v hfatal hbusy))
  by_cases hform : n ≠ 4 ∨ a % 4 ≠ 0
  · exact .inr (.inl (memWrite_malformed v hfatal hform))
  have hidle : Idle s := ⟨hfatal, by simpa using hbusy⟩
  obtain ⟨rfl, ha⟩ : n = 4 ∧ a % 4 = 0 := by omega
  by_cases hloc : s.wordAt a = none
  · exact .inr (.inl (memWrite_of_wordAt_none v hidle ha hloc))
  by_cases hreg : a < 0x100
  · rw [memWrite_idle v hidle ha, if_pos hreg]
    rcases writeReg_cases a v s with h | h | h | h
    · exact .inr (.inl h)
    · exact .inr (.inr ⟨rfl, .inl h⟩)
    · exact .inr (.inr ⟨rfl, .inr (.inl h)⟩)
    · exact .inr (.inr ⟨rfl, .inr (.inr (.inl h))⟩)
  · obtain ⟨w, base, he⟩ := exists_entryAt (by omega) hloc
    by_cases hw : w = .profile
    · have hrange : 0x200000 ≤ a ∧ a < 0x300000 := by
        have hat := windowAt_cases he.1
        simp only [hw, reduceCtorEq, false_and, or_false, false_or, true_and] at hat
        exact hat.2
      exact .inr (.inl (memWrite_profile v hidle ha hrange))
    · exact .inr (.inr ⟨rfl, .inr (.inr (.inr ⟨w, base, hw, he, memWrite_entry v hidle ha hw he⟩))⟩)

/-- What the host's step may change when it is not a reset (10 sections 2 and 3). -/
theorem hostAccess_writers {act : HostAct} {rest : List HostAct} {s t : State} (hscript : s.host.script = act :: rest)
    (h : hostAccess act (takeAccess rest s) = .next t) (hinit : t.initialising = false) :
    (∃ c a b, t.regs = { s.regs with cmd := c, arg0 := a, arg1 := b }) ∧
    t.mem.profile = s.mem.profile ∧
    (t.regs.cmd ≠ s.regs.cmd → ∃ v rest, s.host.script = .write 0x04 4 v :: rest ∧ t.regs.cmd = v) ∧
    (t.regs.arg0 ≠ s.regs.arg0 → ∃ v rest, s.host.script = .write 0x10 4 v :: rest ∧ t.regs.arg0 = v) ∧
    (t.regs.arg1 ≠ s.regs.arg1 → ∃ v rest, s.host.script = .write 0x14 4 v :: rest ∧ t.regs.arg1 = v) ∧
    (t.mem.coef ≠ s.mem.coef → ∃ a v rest, s.host.script = .write a 4 v :: rest ∧ 0x100000 ≤ a ∧ a < 0x200000) ∧
    (t.mem.work ≠ s.mem.work → ∃ a v rest, s.host.script = .write a 4 v :: rest ∧ 0x300000 ≤ a ∧ a < 0x400000) ∧
    (t.mem.out ≠ s.mem.out → ∃ a v rest, s.host.script = .write a 4 v :: rest ∧ 0x400000 ≤ a ∧ a < 0x500000) := by
  have hkept : ∃ c a b, s.regs = { s.regs with cmd := c, arg0 := a, arg1 := b } := ⟨_, _, _, rfl⟩
  rcases hostAccess_cases h with ⟨a, n, -, -, rfl⟩ | ⟨a, n, v, rfl, -, rfl⟩ | ⟨-, rfl⟩ | ⟨-, rfl⟩
  · simp [hkept]
  · rcases memWrite_offset_cases a n v (takeAccess rest s) with
      hw | hw | ⟨rfl, ⟨rfl, hw⟩ | ⟨rfl, hw⟩ | ⟨rfl, hw⟩ | ⟨w, base, hp, ⟨hat, -⟩, hw⟩⟩ <;> rw [hw]
    · simp [hkept]
    · simp [hkept]
    · exact ⟨⟨v, _, _, rfl⟩, rfl, fun _ => ⟨v, rest, hscript, rfl⟩, by simp⟩
    · exact ⟨⟨_, v, _, rfl⟩, rfl, by simp, fun _ => ⟨v, rest, hscript, rfl⟩, by simp⟩
    · exact ⟨⟨_, _, v, rfl⟩, rfl, by simp, by simp, fun _ => ⟨v, rest, hscript, rfl⟩, by simp⟩
    · have hspan := windowAt_cases hat
      cases w with
      | profile => exact absurd rfl hp
      | coef | work | out => simp_all [Memory.put]
  · simp [hkept]
  · cases hinit

/-- A step between two states in operation is the execution of a command, the report of an illegal word, the end of
the run, or a host access. -/
theorem step_operational_cases {s t : State} (hs : s.Operational) (h : step s = .next t) :
    (EngineTurn s ∧ ∃ i, decode s.regs.cmd = .ok i ∧ exec i s = .next t) ∨
    (EngineTurn s ∧ t = execIllegal s) ∨ t = s ∨
    (HostTurn s ∧ ∃ act rest, s.host.script = act :: rest ∧ hostAccess act (takeAccess rest s) = .next t) := by
  rcases step_cases h with ⟨-, hinit, -⟩ | ⟨hturn, hexec | ⟨e, -, ht⟩⟩ | ⟨hturn, ⟨-, -, ht⟩ | hacc⟩
  · simp [hs.2] at hinit
  · exact .inl ⟨hturn, hexec⟩
  · exact .inr (.inl ⟨hturn, ht⟩)
  · exact .inr (.inr (.inl ht))
  · exact .inr (.inr (.inr ⟨hturn, hacc⟩))

/-- Settles O31: a command changes what its opcode allows, an illegal word only `RESULT`, and a host access what its
offset allows. -/
theorem elementsChangeOnlyByTheirWriters : Obligations.ElementsChangeOnlyByTheirWriters := by
  intro s t hs ht h
  rcases step_operational_cases hs h with ⟨hturn, i, hd, hexec⟩ | ⟨hturn, rfl⟩ | rfl | ⟨hturn, act, rest, hscript, hacc⟩
  · obtain ⟨hsizes, hprofile, hpb, hres, hcoef, hwork, hout⟩ := exec_writers hexec
    obtain ⟨hcmd, harg0, harg1⟩ := exec_keeps_host_registers hexec ht.1
    simp only [hd, Except.ok.injEq]
    exact ⟨fun hne => ⟨hturn, hsizes hne⟩, fun hne => ⟨hturn, hprofile hne⟩, fun hne => ⟨hturn, hpb hne⟩,
      fun hne => ⟨hturn, hres hne⟩, fun _ => hturn, fun hne => absurd hcmd hne, fun hne => absurd harg0 hne,
      fun hne => absurd harg1 hne, fun hne => .inl ⟨hturn, hcoef hne⟩, fun hne => .inl ⟨hturn, hwork hne⟩,
      fun hne => .inl ⟨hturn, hout hne⟩⟩
  · exact ⟨by simp [execIllegal], by simp [execIllegal], by simp [execIllegal], by simp [execIllegal], fun _ => hturn,
      by simp [execIllegal]⟩
  · simp
  · obtain ⟨⟨c, a, b, hregs⟩, hprofile, hcmd, harg0, harg1, hcoef, hwork, hout⟩ := hostAccess_writers hscript hacc ht.2
    exact ⟨by simp [hregs], by simp [hregs, hprofile], by simp [hregs], by simp [hregs], by simp [hregs], hcmd, harg0,
      harg1, fun hne => .inr ⟨hturn, hcoef hne⟩, fun hne => .inr ⟨hturn, hwork hne⟩, fun hne => .inr ⟨hturn, hout hne⟩⟩

end Sys2Proof.Machine
end

section
/-! The aperture and reset (20_memory.md, 70_reset_and_hazards.md section 1): the byte order, the register map, a write
of a window entry, and the accesses from the assertion of reset to the end of initialisation. -/

namespace Sys2Proof.Machine
open HostSyntax (windowBase)

/-! ### The byte order and the register map -/

theorem byteOf_eq_extract (w : Word) (i : Nat) : byteOf w i = w.extractLsb' (8 * i) 8 := rfl

/-- Settles O40: the aligned offset and the byte's place in its word are read off `a + i`. -/
theorem apertureIsLittleEndian : Obligations.ApertureIsLittleEndian := by
  intro s a i w ha hi hw
  obtain ⟨hbyte, hword⟩ : (a + i) % 4 = i ∧ a + i - i = a := by omega
  rw [State.byteAt, hbyte, hword, hw, Option.map_some, byteOf_eq_extract]

/-- Settles O42: every offset names its register, which is read whole and written if it is an operand. -/
theorem registerMapReads : Obligations.RegisterMapReads := by
  intro s hs hinit
  have hread {a : Nat} {r : RegName} (hr : RegName.ofOffset a = some r) : memRead a 4 s = (s.readReg r, s) :=
    memRead_register hs hr
  have hnMax : (memRead 0x2C 4 s).1.toNat = Config.nMax ∧ (memRead 0x2C 4 s).2 = s := by
    rw [hread (r := .nMaxReg) rfl]
    exact ⟨toNat_ofNat_size (by omega), rfl⟩
  refine ⟨hread (r := .id) rfl, hread (r := .cmd) rfl, ?_, hread (r := .result) rfl, hread (r := .arg0) rfl,
    hread (r := .arg1) rfl, hread (r := .res0) rfl, hread (r := .res1) rfl, hread (r := .blkSize) rfl,
    hread (r := .fftLen) rfl, hread (r := .nTaps) rfl, hnMax, hread (r := .fsReg) rfl, hread (r := .minBwReg) rfl,
    fun v => ⟨memWrite_register v hs (r := .arg0) rfl, memWrite_register v hs (r := .arg1) rfl⟩⟩
  rw [memRead_status, statusWord_of_initialised hinit]

/-! ### A write of a window entry -/

theorem windowAt_base {a base : Nat} {w : Window} (h : windowAt a = some (w, base)) :
    base = windowBase w ∧ windowBase w ≤ a := by
  rcases windowAt_cases h with ⟨rfl, rfl, hle, -⟩ | ⟨rfl, rfl, hle, -⟩ | ⟨rfl, rfl, hle, -⟩ | ⟨rfl, rfl, hle, -⟩ <;>
    exact ⟨rfl, hle⟩

/-- Two aligned offsets in one entry are its two halves (20 R47). -/
theorem half_ne_of_same_entry {a b : Nat} {w : Window} (ha : a % 4 = 0) (hb : b % 4 = 0) (hne : b ≠ a)
    (hwa : windowBase w ≤ a) (hwb : windowBase w ≤ b)
    (h : entryIndex b (windowBase w) = entryIndex a (windowBase w)) : a / 4 % 2 ≠ b / 4 % 2 := by
  have hbase : windowBase w % 8 = 0 := by cases w <;> rfl
  unfold entryIndex at h
  omega

/-- Two states that differ in the memories alone have the same registers in the aperture. -/
theorem wordAt_reg_put (s : State) (m : Memory) {a : Nat} (h : a < 0x100) :
    State.wordAt { s with mem := m } a = s.wordAt a := by
  have hread : State.readReg { s with mem := m } = s.readReg := by
    funext r
    cases r <;> rfl
  rw [wordAt_reg _ h, wordAt_reg _ h, hread]

section written
variable {s : State} {w : Window} {base a b : Nat} (v : Word) (hsizes : s.mem.wf s.blockSize) (he : EntryAt s w base a)
include hsizes he

theorem wordAt_written_same :
    State.wordAt { s with mem := s.mem.put w (setEntryHalf (s.mem.get w) (entryIndex a base) a v) } a = some v := by
  obtain ⟨hat, hk⟩ := he
  have hlt := hk
  rw [← Memory.get_length hsizes] at hlt
  rw [wordAt_window _ hat, Memory.get_put_same, entry_setEntryHalf_same _ _ hlt, Sample.half_setHalf_same]
  exact if_pos hk

/-- A write of one half leaves every other half of every memory (20 R47, R53). -/
theorem half_written_other {w' : Window} {base' : Nat} (ha : a % 4 = 0) (hb : b % 4 = 0) (hne : b ≠ a)
    (hat' : windowAt b = some (w', base')) :
    (entry ((s.mem.put w (setEntryHalf (s.mem.get w) (entryIndex a base) a v)).get w') (entryIndex b base')).half b =
      (entry (s.mem.get w') (entryIndex b base')).half b := by
  obtain ⟨hat, hk⟩ := he
  rw [← Memory.get_length hsizes] at hk
  obtain ⟨rfl, hwa⟩ := windowAt_base hat
  obtain ⟨rfl, hwb⟩ := windowAt_base hat'
  by_cases hw : w' = w
  · subst hw
    rw [Memory.get_put_same]
    by_cases hidx : entryIndex b (windowBase w') = entryIndex a (windowBase w')
    · rw [hidx, entry_setEntryHalf_same _ _ hk,
        Sample.half_setHalf_other _ _ _ _ (half_ne_of_same_entry ha hb hne hwa hwb hidx)]
    · rw [entry_setEntryHalf_other _ _ hidx]
  · rw [Memory.get_put_other _ _ hw]

theorem wordAt_written_other (ha : a % 4 = 0) (hb : b % 4 = 0) (hne : b ≠ a) :
    State.wordAt { s with mem := s.mem.put w (setEntryHalf (s.mem.get w) (entryIndex a base) a v) } b =
      s.wordAt b := by
  by_cases hreg : b < 0x100
  · exact wordAt_reg_put _ _ hreg
  · cases hat' : windowAt b with
    | none => rw [wordAt_unmapped_region _ (by omega) hat', wordAt_unmapped_region _ (by omega) hat']
    | some p =>
      rw [wordAt_window _ hat', wordAt_window _ hat', half_written_other v hsizes he ha hb hne hat']
      rfl

end written

/-- Settles O41: the written half reads back, and every other word is a register or another half. -/
theorem windowWriteReadsBack : Obligations.WindowWriteReadsBack := by
  intro s w base a v hsound hs hw ha hat hk
  rw [memWrite_entry v hs ha hw ⟨hat, hk⟩]
  exact ⟨memRead_of_wordAt_some hs ha (wordAt_written_same v hsound.sizes ⟨hat, hk⟩), rfl, rfl,
    fun b hb hne => wordAt_written_other v hsound.sizes ⟨hat, hk⟩ ha hb hne⟩

/-! ### Reset -/

/-- Settles O45: the assertion of reset, the accesses while initialising, which are those of a busy block, and the end. -/
theorem powerOnResetFromAnyState : Obligations.PowerOnResetFromAnyState := by
  refine ⟨fun s rest hturn hscript => ?asserted, fun s hs hinit => ?initialising, fun s hturn hinit => ?done⟩
  case asserted => exact ⟨_, step_eq_hostAccess hturn hscript, rfl, rfl, rfl, rfl, rfl⟩
  case initialising =>
    obtain ⟨hbusy, -, hfatal⟩ := hs.init hinit
    refine ⟨memRead_id s, by rw [memRead_status, statusWord_of_initialising hinit], fun a n h => ?_, fun a n v => ?_⟩
    · rw [memRead_while_busy hfatal hbusy h]
      exact ⟨rfl, hinit, statusWord_of_initialising hinit⟩
    · rw [memWrite_while_busy a n v hfatal hbusy]
      exact ⟨rfl, hinit, statusWord_of_initialising hinit⟩
  case done => exact ⟨_, step_initialised hturn hinit, rfl, rfl, rfl⟩

end Sys2Proof.Machine
end

section
/-! The commands `CONFIG`, `BUILD` and `APPLY` (42_workspace_commands.md section 1, 40_ols_commands.md): what they
compute, and what of the aperture each command leaves. -/

namespace Sys2Proof

/-- The encoding of a command with an operand: its opcode, whatever `IMM24` is (30 R71, R74). -/
theorem encodedWithOperand {opc : BitVec 8} {f : Nat → Instr} (hopc : ∀ n, opc.toNat = (f n).opcode)
    (himm : ∀ n, (f n).immediate = n) : Machine.EncodedWithOperand opc f := by
  intro w hw
  rw [decode_iff, extract_imm24, himm, ← extract_opc, hw]
  exact ⟨hopc _, rfl⟩

/-- Padding keeps the first `m` coefficients (40 R86). -/
theorem zeroPad_getElem?_front {L m k : Nat} {v : List Sample} (hmL : m ≤ L) (hmv : m ≤ v.length) (hk : k < m) :
    (zeroPad L m v)[k]? = v[k]? := by
  rw [getElem?_eq_entry (by rw [zeroPad_length]; omega), entry_zeroPad v (by omega), if_pos hk,
    getElem?_eq_entry (by omega)]

theorem zeroPad_getElem?_back {L m k : Nat} (c : List Sample) (hkL : k < L) (hk : m ≤ k) :
    (zeroPad L m c)[k]? = some CZERO := by
  rw [getElem?_eq_entry (by rw [zeroPad_length]; exact hkL), entry_zeroPad c hkL, if_neg (by omega)]

theorem Numerics.build_getElem? (num : Numerics) {L k : Nat} (h : List Sample) (hk : k < L) :
    (num.build L h)[k]? = some (num.buildAt L h k) := by
  rw [getElem?_eq_entry (by simpa using hk), entry_build _ _ hk]

theorem entry_congr {v w : List Sample} {k : Nat} (h : v[k]? = w[k]?) : entry v k = entry w k := by
  rw [entry, entry, List.getD, List.getD, h]

namespace Machine
open HostSyntax (windowBase)

/-! ### `CONFIG` -/

/-- Settles O11: a rebuild is read off element by element, and its sizes do not wrap. -/
theorem configRebuildsOrIsFatal : Obligations.ConfigRebuildsOrIsFatal := by
  refine ⟨encodedWithOperand (fun _ => rfl) fun _ => rfl, fun n s hpow hmax => ?valid, fun n s hinvalid => ?invalid⟩
  case valid =>
    have hpow2 : isPow2 n = true := (isPow2_iff n).mpr hpow
    have hpos := isPow2_pos hpow2
    exact ⟨_, exec_config_valid s ((validBlockSize_iff n).mpr ⟨hpow2, hmax⟩),
      toNat_ofNat_size (by omega), toNat_ofNat_size (by omega), toNat_ofNat_size (by omega),
      rfl, rfl, rfl, rfl, rfl, rfl, rfl, rfl, rfl, rebuild_wf n s, fun _ hk => defaultCoef_getElem? hk,
      fun _ hk => defaultProfile_getElem? hpos hk, fun _ hk => zeros_getElem? hk, fun _ hk => zeros_getElem? hk,
      rfl, rfl⟩
  case invalid =>
    exact ⟨_, exec_config_invalid s ((validBlockSize_eq_false_iff n).mpr hinvalid), rfl, rfl, rfl⟩

/-- Settles O46: `rebuild` writes every element but `CMD`, `ARG0` and `ARG1` with values that the block size alone
determines, and `State.reset` is a rebuild. -/
theorem rebuildRoundTrip : Obligations.RebuildRoundTrip := by
  intro n s s' t t' hpow hmax ht ht'
  have hvalid : validBlockSize n = true := (validBlockSize_iff n).mpr ⟨(isPow2_iff n).mpr hpow, hmax⟩
  cases (exec_config_valid s hvalid).symm.trans ht
  cases (exec_config_valid s' hvalid).symm.trans ht'
  refine ⟨rfl, rfl, rfl, rfl, fun hn => ?_⟩
  subst hn
  exact ⟨rfl, rfl, rfl, rfl⟩

/-! ### `BUILD` and `APPLY` -/

/-- Settles O12: the padded coefficients are the first `m` and then `CZERO`, and `m` does not wrap. -/
theorem buildComputesProfile : Obligations.BuildComputesProfile := by
  refine ⟨encodedWithOperand (fun _ => rfl) fun _ => rfl, fun m s hs => ⟨fun hpos hle => ?accepted, fun hm => ?rejected⟩⟩
  case accepted =>
    have hN := isPow2_pos hs.block_pow2
    have hmax := hs.block_le
    change m ≤ s.blockSize + 1 at hle
    obtain ⟨hcoef, -, -, -⟩ := hs.sizes
    refine ⟨_, exec_build_accepted (by omega), rfl, toNat_ofNat_size (by omega), rfl, rfl,
      (Numerics.build_length ..).trans hs.fft_eq,
      ⟨zeroPad s.fftLength m s.mem.coef, (zeroPad_length ..).trans hs.fft_eq, fun n hn => ?_, fun n hn hmn => ?_,
        fun k hk => ?_⟩, rfl, rfl⟩
    · have hfft := hs.fft_eq
      exact zeroPad_getElem?_front (by omega) (by omega) hn
    · exact zeroPad_getElem?_back _ (hn.trans_eq hs.fft_eq.symm) hmn
    · rw [finish_mem, ← State.blockSize, ← hs.fft_eq]
      exact Numerics.build_getElem? _ _ (hk.trans_eq hs.fft_eq.symm)
  case rejected =>
    change m = 0 ∨ s.blockSize + 1 < m at hm
    rw [exec_build_rejected (by omega)]
    rfl

/-- Settles O16: the work buffer and the profile are all that `APPLY` computes with. -/
theorem applyReadsOnlyItsOperands : Obligations.ApplyReadsOnlyItsOperands := by
  intro s s' t t' hblk hfirst hwork hprofile ht ht'
  obtain rfl := exec_apply_eq ht
  obtain rfl := exec_apply_eq ht'
  have hN : s.blockSize = s'.blockSize := congrArg BitVec.toNat hblk
  have hbuffer := firstCallWork_congr hblk hfirst hwork
  simp only [applyWith, finish_mem, hN, hbuffer, hprofile, and_self]

/-- Settles O52: the commands are defined as the operations at `Config.num`. -/
theorem machineRunsItsNumerics : Obligations.MachineRunsItsNumerics := fun _ _ => ⟨rfl, rfl⟩

/-! ### Frames -/

/-- A byte outside the REG region is the same in two states of one block size that have the same entry there, if an
entry is there. -/
theorem byteAt_of_entry_eq {s t : State} {a : Nat} (ha : 0x100 ≤ a) (hN : t.blockSize = s.blockSize)
    (h : ∀ w k, windowBase w + 8 * k ≤ a → a < windowBase w + 8 * k + 8 → k < windowSize s.blockSize w →
      entry (t.mem.get w) k = entry (s.mem.get w) k) : t.byteAt a = s.byteAt a := by
  refine byteAt_congr (wordAt_congr _ (by omega) hN fun w base he => ?_)
  obtain ⟨hat, hk⟩ := he
  obtain ⟨rfl, hle⟩ := windowAt_base hat
  have hbase : windowBase w % 8 = 0 := by cases w <;> rfl
  refine h w _ ?_ ?_ hk <;> unfold entryIndex <;> omega

/-- Settles O20: neither command touches a memory. -/
theorem frameOfCommandsThatStoreNothing : Obligations.FrameOfCommandsThatStoreNothing := by
  rintro i s t (rfl | rfl) h <;> cases h
  · exact ⟨fun a ha => byteAt_of_mem_eq ha rfl rfl, rfl, .inl rfl, rfl, rfl⟩
  · exact ⟨fun a ha => byteAt_of_mem_eq ha rfl rfl, rfl, .inr ⟨rfl, rfl⟩, rfl, rfl⟩

/-- Settles O21: a byte of any other window is of another memory, and every current entry of PROFILE is stored. -/
theorem frameOfBuild : Obligations.FrameOfBuild := by
  intro m s t _ h
  by_cases hm : m < 1 ∨ m > s.blockSize + 1
  · cases (exec_build_rejected hm).symm.trans h
    exact ⟨fun a ha _ => byteAt_of_mem_eq ha rfl rfl, rfl, rfl⟩
  · cases (exec_build_accepted hm).symm.trans h
    refine ⟨fun a ha hout => byteAt_of_entry_eq ha rfl fun w k hlo hhi hk => ?_, rfl, rfl⟩
    cases w with
    | profile => rw [windowBase] at hlo hhi; rw [windowSize] at hk; omega
    | coef | work | out => rfl

/-- Settles O22: zeroing the history keeps the entries from `N` on. -/
theorem frameOfRestart : Obligations.FrameOfRestart := by
  intro s t h
  cases h
  refine ⟨fun a ha hout => byteAt_of_entry_eq ha rfl fun w k hlo hhi _ => ?_, rfl, rfl⟩
  cases w with
  | work => rw [windowBase] at hlo hhi; exact entry_zeroHistory_back (by omega)
  | coef | profile | out => rfl

/-- Settles O23: the entries of WORK from `N` on stay, and every current entry of OUT is stored. -/
theorem frameOfApply : Obligations.FrameOfApply := by
  intro s t h
  obtain rfl := exec_apply_eq h
  refine ⟨fun a ha hhistory hout => byteAt_of_entry_eq ha rfl fun w k hlo hhi hk => ?_, rfl, rfl⟩
  cases w with
  | work => rw [windowBase] at hlo hhi; exact entry_congr (applyWith_work_back _ (by omega))
  | out => rw [windowBase] at hlo hhi; rw [windowSize] at hk; omega
  | coef | profile => rfl

/-- Settles O24: every current entry of COEF and of PROFILE is stored, and the other memories stay. -/
theorem frameOfSetPassband : Obligations.FrameOfSetPassband := by
  intro s t _ h
  by_cases hok : validPB Config.fs Config.minBw s.regs.arg0 s.regs.arg1 = .ok
  · cases (exec_setPassband_accepted hok).symm.trans h
    refine ⟨fun a ha hout => byteAt_of_entry_eq ha rfl fun w k hlo hhi hk => ?_, rfl, rfl⟩
    rw [not_and] at hout
    have hstored := hout hok
    cases w with
    | coef | profile => rw [windowBase] at hlo hhi; rw [windowSize] at hk; omega
    | work | out => rfl
  · cases (exec_setPassband_rejected hok).symm.trans h
    exact ⟨fun a ha _ => byteAt_of_mem_eq ha rfl rfl, rfl, rfl⟩

end Machine

end Sys2Proof
end

section
/-! The real value of a word (00_scope.md R9). -/

namespace Sys2Proof

/-! ### The fields of a binary32 word -/

theorem extract_exponent (w : Word) : (w.extractLsb' 23 8).toNat = f32Exponent w := by
  simp [f32Exponent, Nat.shiftRight_eq_div_pow]

theorem extract_fraction (w : Word) : (w.extractLsb' 0 23).toNat = f32Fraction w := by simp [f32Fraction]

theorem getLsbD_sign (w : Word) : w.getLsbD 31 = f32Negative w :=
  (BitVec.msb_eq_getLsbD_last w).symm.trans (BitVec.msb_eq_decide w)

theorem isFinite_eq_false_iff (w : Word) : isFinite w = false ↔ f32Exponent w = 255 := by simp [isFinite]

/-- The value of a word: its sign and its magnitude, in units of the least subnormal. -/
theorem f32_eq (w : Word) : f32 w = (if f32Negative w then -1 else 1) * ((f32Magnitude w : ℝ) / 2 ^ 149) := by
  rw [f32, f32Scaled]
  split <;> push_cast <;> ring

theorem f32Magnitude_normal {w : Word} {e : ℕ} (he : f32Exponent w = e + 1) :
    (f32Magnitude w : ℝ) / 2 ^ 149 = 2 ^ ((f32Exponent w : ℤ) - 127) * (1 + (f32Fraction w : ℝ) / 2 ^ 23) := by
  have hscale : (2 : ℝ) ^ (((e + 1 : ℕ) : ℤ) - 127) = 2 ^ e / 2 ^ 126 := by
    rw [← zpow_natCast, ← zpow_natCast, ← zpow_sub₀ two_ne_zero]
    congr 1
    push_cast
    ring
  rw [f32Magnitude, he, if_neg (Nat.succ_ne_zero e), hscale, Nat.add_sub_cancel]
  push_cast
  ring

theorem f32Magnitude_subnormal {w : Word} (he : f32Exponent w = 0) :
    (f32Magnitude w : ℝ) / 2 ^ 149 = (f32Fraction w : ℝ) * 2 ^ (-149 : ℤ) := by
  rw [f32Magnitude, if_pos he, zpow_neg, div_eq_mul_inv]
  norm_cast

/-- Settles O54: the scaled integer of `f32` is `2^149` times the binary32 value, for normal and subnormal words. -/
theorem floatValueIsBinary32 : Obligations.FloatValueIsBinary32 := by
  intro w
  simp only [extract_exponent, extract_fraction, getLsbD_sign]
  refine ⟨isFinite_eq_false_iff w, fun hpos _ => ?normal, fun hzero => ?subnormal⟩
  case normal =>
    obtain ⟨e, he⟩ := Nat.exists_eq_add_of_le' hpos
    rw [f32_eq, f32Magnitude_normal he, mul_assoc]
  case subnormal => rw [f32_eq, f32Magnitude_subnormal hzero, mul_assoc]

end Sys2Proof
end

section
/-! The exact model (00_scope.md R11, R12, 40_ols_commands.md section 5): with few enough taps the back half of the
circular convolution is the direct convolution, block after block. -/

namespace Sys2Proof

/-! ### The circular convolution -/

/-- A product with a transform, back: the sums exchanged, each tap shifts the other factor (40 R94). -/
theorem idft_mul_dft (L : ℕ) (V h : ℕ → ℂ) (n : ℕ) :
    idft L (fun k => V k * dft L h k) n =
      ∑ t ∈ Finset.range L, h t * ∑ k ∈ Finset.range L, V k * omega L ^ ((k : ℤ) * ((n : ℤ) - t)) := by
  simp only [idft, dft, Finset.sum_mul, Finset.mul_sum]
  rw [Finset.sum_comm]
  refine Finset.sum_congr rfl fun t _ => Finset.sum_congr rfl fun k _ => ?_
  rw [mul_sub, sub_eq_add_neg, zpow_add₀ (omega_ne_zero L)]
  ring

/-- A tap within the index does not wrap around. -/
theorem idft_dft_shifted {L n t : ℕ} (w : ℕ → ℂ) (hn : n < L) (ht : t ≤ n) :
    ∑ k ∈ Finset.range L, dft L w k * omega L ^ ((k : ℤ) * ((n : ℤ) - t)) = L * w (n - t) := by
  rw [← Nat.cast_sub ht]
  exact idft_dft w (by omega)

/-- A sum over a whole period of taps that vanish from `M` on. -/
theorem sum_taps {L M : ℕ} (hM : M ≤ L) (h X : ℕ → ℂ) :
    ∑ t ∈ Finset.range L, (if t < M then h t else 0) * X t = ∑ t ∈ Finset.range M, h t * X t := by
  simp only [ite_mul, zero_mul, ← Finset.mem_range (m := _) (n := M)]
  rw [Finset.sum_ite_mem, Finset.inter_eq_right.mpr (Finset.range_mono hM)]

/-- No tap wraps around at an index that is at least the last tap's: the circular convolution is the direct one. -/
theorem circular_eq_direct {L M n : ℕ} (h w : ℕ → ℂ) (hM : M ≤ n + 1) (hn : n < L) :
    idft L (fun k => dft L w k * dft L (fun t => if t < M then h t else 0) k) n =
      L * ∑ t ∈ Finset.range M, h t * w (n - t) := by
  rw [idft_mul_dft, sum_taps (by omega), Finset.mul_sum]
  refine Finset.sum_congr rfl fun t ht => ?_
  rw [Finset.mem_range] at ht
  rw [idft_dft_shifted w hn (by omega)]
  ring

/-- The scaling of the reference profile, `1/L`, comes out of the reference output. -/
theorem refApply_refBuild (N : ℕ) (w h : ℕ → ℂ) (j : ℕ) : refApply N w (refBuild (2 * N) h) j =
    1 / ((2 * N : ℕ) : ℂ) * idft (2 * N) (fun k => dft (2 * N) w k * dft (2 * N) h k) (N + j) := by
  rw [refApply, idft, idft, Finset.mul_sum]
  refine Finset.sum_congr rfl fun k _ => ?_
  rw [refBuild]
  ring

/-- Settles O48: output index `N + j` is at least the last tap's, so no tap wraps around. -/
theorem exactModelConvolves : Obligations.ExactModelConvolves := by
  intro N M h w hM j hj
  have hL : ((2 * N : ℕ) : ℂ) ≠ 0 := Nat.cast_ne_zero.mpr (by omega)
  rw [refApply_refBuild, circular_eq_direct h w (by omega) (by omega), one_div, inv_mul_cancel_left₀ hL]

/-! ### Streams -/

/-- Block `b`'s buffer in a signal with silence before it: the block before, then the block (40 R98). -/
noncomputable def streamBuffer (N : ℕ) (x : ℕ → ℂ) (b n : ℕ) : ℂ := if N ≤ b * N + n then x (b * N + n - N) else 0

/-- The taps that reach back beyond the first sample meet silence, as in the direct convolution of the signal. -/
theorem sum_buffer_eq_directConv {N M j : ℕ} (h x : ℕ → ℂ) (b : ℕ) (hM : M ≤ N + 1) :
    ∑ t ∈ Finset.range M, h t * streamBuffer N x b (N + j - t) = directConv M h x (b * N + j) := by
  refine Finset.sum_congr rfl fun t ht => ?_
  rw [Finset.mem_range] at ht
  have hreach : N ≤ b * N + (N + j - t) ↔ t ≤ b * N + j := by omega
  have hindex : b * N + (N + j - t) - N = b * N + j - t := by omega
  rw [streamBuffer, hindex, mul_ite, mul_zero]
  simp only [hreach]

/-- Settles O55: each block is the direct convolution of its buffer, which holds the signal. -/
theorem exactModelStreams : Obligations.ExactModelStreams := by
  intro N M h x hM b j hj
  exact (exactModelConvolves N M h (streamBuffer N x b) hM j hj).trans (sum_buffer_eq_directConv h x b hM)

end Sys2Proof
end

section
/-! The machine's `APPLY` within the accuracy of its numerics (00_scope.md R13, 40_ols_commands.md section 5): one call,
a stream of blocks, and silence. -/

namespace Sys2Proof

/-! ### Values and magnitudes of sequences -/

theorem values_of_length_le {v : List Sample} {k : ℕ} (h : v.length ≤ k) : values v k = 0 := by
  rw [values, entry, List.getD, List.getElem?_eq_none h, Option.getD_none, val_CZERO]

/-- The padded coefficients as values: the first `m`, then 0 (40 R86). -/
theorem values_zeroPad {L m : ℕ} (c : List Sample) (hm : m ≤ L) :
    values (zeroPad L m c) = fun n => if n < m then values c n else 0 := by
  funext n
  by_cases hn : n < L
  · rw [values, entry_zeroPad c hn]
    split
    · rfl
    · exact val_CZERO
  · rw [values_of_length_le (by rw [zeroPad_length]; omega), if_neg (by omega)]

theorem sumNorm_zeroPad {L m : ℕ} (c : List Sample) (hm : m ≤ L) :
    sumNorm (zeroPad L m c) = ∑ t ∈ Finset.range m, ‖values c t‖ := by
  rw [← sumNorm_eq_sum, zeroPad_length, values_zeroPad c hm]
  simp only [apply_ite norm, norm_zero, ← Finset.mem_range (n := m)]
  rw [Finset.sum_ite_mem, Finset.inter_eq_right.mpr (Finset.range_mono hm)]

theorem sumNorm_append (v w : List Sample) : sumNorm (v ++ w) = sumNorm v + sumNorm w := by
  rw [sumNorm, sumNorm, sumNorm, List.map_append, List.sum_append]

theorem sumNorm_eq_zero {v : List Sample} (h : ∀ k < v.length, values v k = 0) : sumNorm v = 0 := by
  rw [← sumNorm_eq_sum]
  exact Finset.sum_eq_zero fun k hk => by rw [h k (Finset.mem_range.mp hk), norm_zero]

/-- A bound on every value is a bound on the largest. -/
theorem maxNorm_le {v : List Sample} {B : ℝ} (hB : 0 ≤ B) (h : ∀ k < v.length, ‖values v k‖ ≤ B) : maxNorm v ≤ B := by
  induction v with
  | nil => exact hB
  | cons c v ih => exact max_le (h 0 (by simp)) (ih fun k hk => h (k + 1) (by simpa using hk))

/-! ### Accuracy -/

/-- Every bin of an accurate profile is near its reference. -/
theorem norm_build_sub_le {num : Numerics} {epsB : ℝ} {L k : ℕ} {h : List Sample} (acc : num.AccBuildOn epsB L h)
    (hk : k < L) : ‖values (num.build L h) k - refBuild L (values h) k‖ ≤ epsB * (1 / L) * sumNorm h := by
  rw [values, entry_build num h hk]
  exact (acc k hk).2

/-- The largest bin of an accurate profile. -/
theorem maxNorm_build_le {num : Numerics} {epsB : ℝ} (hepsB : 0 ≤ epsB) {L : ℕ} {h : List Sample} (hL : h.length = L)
    (acc : num.AccBuildOn epsB L h) : maxNorm (num.build L h) ≤ (1 + epsB) * (1 / L) * sumNorm h := by
  have hsum := sumNorm_nonneg h
  refine maxNorm_le (by positivity) fun k hk => ?_
  rw [Numerics.build_length] at hk
  calc ‖values (num.build L h) k‖
      ≤ ‖values (num.build L h) k - refBuild L (values h) k‖ + ‖refBuild L (values h) k‖ := norm_le_norm_sub_add _ _
    _ ≤ epsB * (1 / L) * sumNorm h + 1 / L * sumNorm h := add_le_add (norm_build_sub_le acc hk) (norm_refBuild_le hL k)
    _ = (1 + epsB) * (1 / L) * sumNorm h := by ring

/-- The reference output moves with the profile by at most the bins' errors times the buffer's magnitude. -/
theorem norm_refApply_sub_le {N : ℕ} {w : List Sample} (hw : w.length = 2 * N) {p q : ℕ → ℂ} {B : ℝ}
    (hpq : ∀ k < 2 * N, ‖p k - q k‖ ≤ B) (j : ℕ) :
    ‖refApply N (values w) p j - refApply N (values w) q j‖ ≤ (2 * N) * sumNorm w * B := by
  have hdiff : refApply N (values w) p j - refApply N (values w) q j =
      idft (2 * N) (fun k => dft (2 * N) (values w) k * (p k - q k)) (N + j) := by
    rw [refApply, refApply, idft, idft, idft, ← Finset.sum_sub_distrib]
    exact Finset.sum_congr rfl fun k _ => by ring
  have hbin : ∀ k ∈ Finset.range (2 * N), ‖dft (2 * N) (values w) k * (p k - q k)‖ ≤ sumNorm w * B := by
    intro k hk
    have hdft := norm_dft_le (2 * N) (values w) k
    rw [← hw, sumNorm_eq_sum, hw] at hdft
    rw [norm_mul]
    exact mul_le_mul hdft (hpq k (Finset.mem_range.mp hk)) (norm_nonneg _) (sumNorm_nonneg w)
  calc ‖refApply N (values w) p j - refApply N (values w) q j‖
      ≤ ∑ k ∈ Finset.range (2 * N), ‖dft (2 * N) (values w) k * (p k - q k)‖ := hdiff ▸ norm_idft_le _ _ _
    _ ≤ ∑ _k ∈ Finset.range (2 * N), sumNorm w * B := Finset.sum_le_sum hbin
    _ = (2 * N) * sumNorm w * B := by
      rw [Finset.sum_const, Finset.card_range, nsmul_eq_mul]
      push_cast
      ring

/-- The reference output with an accurate profile is the direct convolution within the profile's accuracy. -/
theorem norm_refApply_build_sub_le {num : Numerics} {epsB : ℝ} {N M j : ℕ} {w c : List Sample} (hj : j < N)
    (hw : w.length = 2 * N) (hM : M ≤ N + 1) (acc : num.AccBuildOn epsB (2 * N) (zeroPad (2 * N) M c)) :
    ‖refApply N (values w) (values (num.build (2 * N) (zeroPad (2 * N) M c))) j -
        ∑ t ∈ Finset.range M, values c t * values w (N + j - t)‖
      ≤ epsB * sumNorm w * ∑ t ∈ Finset.range M, ‖values c t‖ := by
  have hN : (N : ℝ) ≠ 0 := Nat.cast_ne_zero.mpr (by omega)
  have hbins := norm_refApply_sub_le hw (fun k hk => norm_build_sub_le acc hk) j
  rw [values_zeroPad c (by omega), exactModelConvolves N M (values c) (values w) hM j hj,
    sumNorm_zeroPad c (by omega)] at hbins
  refine hbins.trans_eq ?_
  push_cast
  field_simp

namespace Machine

/-- One `APPLY` within its accuracies: the error of the output on top of that of the profile (00 R13). -/
theorem applyWith_convolves {num : Numerics} {epsB epsA : ℝ} {s : State} {c : List Sample} {M : ℕ} (hepsB : 0 ≤ epsB)
    (hepsA : 0 ≤ epsA) (hsizes : s.mem.wf s.blockSize) (hM : M ≤ s.blockSize + 1)
    (hprofile : s.mem.profile = num.build (2 * s.blockSize) (zeroPad (2 * s.blockSize) M c))
    (accB : num.AccBuildOn epsB (2 * s.blockSize) (zeroPad (2 * s.blockSize) M c))
    (accA : num.AccApplyOn epsA s.blockSize (firstCallWork s) s.mem.profile) {j : ℕ} (hj : j < s.blockSize) :
    (entry (applyWith num s).mem.out j).isFinite = true ∧
    ‖values (applyWith num s).mem.out j -
        ∑ t ∈ Finset.range M, values c t * values (firstCallWork s) (s.blockSize + j - t)‖
      ≤ (epsB + epsA * (1 + epsB)) * sumNorm (firstCallWork s) * ∑ t ∈ Finset.range M, ‖values c t‖ := by
  have ⟨_, _, hwork, _⟩ := hsizes
  have hlen := firstCallWork_length hwork
  have hout : entry (applyWith num s).mem.out j = num.applyAt s.blockSize (firstCallWork s) s.mem.profile j := by
    rw [entry, List.getD, applyWith_out hsizes hj, Option.getD_some]
  obtain ⟨hfinite, herr⟩ := accA j hj
  rw [values, hout]
  refine ⟨hfinite, ?_⟩
  have hN : (s.blockSize : ℝ) ≠ 0 := Nat.cast_ne_zero.mpr (by omega)
  have hmax := maxNorm_build_le hepsB (zeroPad_length ..) accB
  rw [← hprofile, sumNorm_zeroPad c (by omega)] at hmax
  have href := norm_refApply_build_sub_le hj hlen hM accB
  rw [← hprofile] at href
  have hscale : 0 ≤ epsA * (2 * s.blockSize) * sumNorm (firstCallWork s) :=
    mul_nonneg (by positivity) (sumNorm_nonneg _)
  calc _ ≤ _ := norm_sub_le_norm_sub_add_norm_sub _ (refApply s.blockSize (values (firstCallWork s)) (values s.mem.profile) j) _
    _ ≤ epsA * (2 * s.blockSize) * sumNorm (firstCallWork s) * ((1 + epsB) * (1 / (2 * s.blockSize : ℕ)) *
          ∑ t ∈ Finset.range M, ‖values c t‖) +
        epsB * sumNorm (firstCallWork s) * ∑ t ∈ Finset.range M, ‖values c t‖ :=
      add_le_add (herr.trans (mul_le_mul_of_nonneg_left hmax hscale)) href
    _ = (epsB + epsA * (1 + epsB)) * sumNorm (firstCallWork s) * ∑ t ∈ Finset.range M, ‖values c t‖ := by
      push_cast
      field_simp
      ring

/-- Settles O49: one `APPLY` within its accuracies. -/
theorem applyConvolvesWithinAcc : Obligations.ApplyConvolvesWithinAcc := by
  intro num epsB epsA s c M hepsB hepsA _ hsizes hM hprofile _ _ accB accA
  obtain ⟨-, -, -, hout⟩ := applyWith_wf num hsizes
  exact ⟨hout, fun j hj => applyWith_convolves hepsB hepsA hsizes hM hprofile accB accA hj⟩

/-- Settles O51: the reference output of silence is 0, and so is the error that the accuracy allows. -/
theorem zeroInZeroOut : Obligations.ZeroInZeroOut := by
  intro num epsA s hsizes _ _ hzero acc j hj
  have ⟨_, _, hwork, _⟩ := hsizes
  have hlen := firstCallWork_length hwork
  have hsilent : sumNorm (firstCallWork s) = 0 := sumNorm_eq_zero fun k hk => hzero k (hlen ▸ hk)
  have href := norm_refApply_le (p := s.mem.profile) hlen j
  obtain ⟨-, herr⟩ := acc j hj
  rw [hsilent, mul_zero, zero_mul, norm_le_zero_iff] at href herr
  rw [values, entry, List.getD, applyWith_out hsizes hj, Option.getD_some, sub_eq_zero.mp herr, href]

end Machine

end Sys2Proof
end

section
/-! A stream of blocks (40_ols_commands.md R98): what each `APPLY` transforms is the block before, then the block, so that
the stream is the direct convolution of the whole signal. -/

namespace Sys2Proof

/-! ### The signal in blocks -/

theorem values_append_left {v w : List Sample} {k : ℕ} (h : k < v.length) : values (v ++ w) k = values v k := by
  rw [values, entry_congr (List.getElem?_append_left h), ← values]

theorem values_append_right {v w : List Sample} {k : ℕ} (h : v.length ≤ k) :
    values (v ++ w) k = values w (k - v.length) := by
  rw [values, entry, List.getD, List.getElem?_append_right h, ← List.getD, ← entry, ← values]

/-- Sample `n` of block `b` in the stream (40 R98). -/
theorem streamValue_block {N n : ℕ} (x : ℕ → List Sample) (b : ℕ) (hn : n < N) :
    streamValue N x (b * N + n) = values (x b) n := by
  rw [streamValue, Nat.mul_add_mod', Nat.mod_eq_of_lt hn, mul_comm, Nat.mul_add_div (by omega), Nat.div_eq_of_lt hn,
    add_zero]

/-- The history block `b` is filtered with: silence before the first block, then the block before (40 R98). -/
def streamHistory (N : ℕ) (x : ℕ → List Sample) : ℕ → List Sample
  | 0 => zeros N
  | b + 1 => x b

section streamHistory
variable {N : ℕ} {x : ℕ → List Sample} (hx : ∀ b, (x b).length = N)
include hx

theorem streamHistory_length (b : ℕ) : (streamHistory N x b).length = N := by
  cases b with
  | zero => exact zeros_length N
  | succ b => exact hx b

/-- The buffer of block `b` holds the stream's samples, with silence before the first. -/
theorem values_streamHistory_append (b : ℕ) {n : ℕ} (hn : n < 2 * N) :
    values (streamHistory N x b ++ x b) n = streamBuffer N (streamValue N x) b n := by
  have hlen := streamHistory_length hx b
  rw [streamBuffer]
  by_cases hhist : n < N
  · rw [values_append_left (by omega)]
    cases b with
    | zero => rw [if_neg (by omega), streamHistory, values, entry_zeros, val_CZERO]
    | succ b =>
      have hindex : (b + 1) * N + n - N = b * N + n := by rw [Nat.succ_mul]; omega
      rw [if_pos (by rw [Nat.succ_mul]; omega), hindex, streamValue_block x b hhist, streamHistory]
  · have hindex : b * N + n - N = b * N + (n - N) := by omega
    rw [values_append_right (by omega), hlen, if_pos (by omega), hindex, streamValue_block x b (by omega)]

end streamHistory

theorem sumNorm_streamHistory (N : ℕ) (x : ℕ → List Sample) (b : ℕ) :
    sumNorm (streamHistory N x b) = if b = 0 then 0 else sumNorm (x (b - 1)) := by
  cases b with
  | zero => exact sumNorm_eq_zero fun k _ => by rw [streamHistory, values, entry_zeros, val_CZERO]
  | succ b => rfl

/-- The first half of the buffer after the save is the input half (40 R95). -/
theorem take_saveHistory {N : ℕ} {v : List Sample} (hv : v.length = 2 * N) : (saveHistory N v).take N = v.drop N := by
  apply List.ext_getElem?
  intro k
  rw [List.getElem?_take, List.getElem?_drop]
  split
  next hk => exact saveHistory_getElem?_front hv hk
  next hk => rw [List.getElem?_eq_none (by omega)]

/-- A history of `CZERO` entries is that many zeros. -/
theorem take_eq_zeros {N : ℕ} {v : List Sample} (hlen : N ≤ v.length) (h : ∀ k < N, entry v k = CZERO) :
    v.take N = zeros N := by
  apply List.ext_getElem?
  intro k
  rw [List.getElem?_take]
  split
  next hk => rw [getElem?_eq_entry (by omega), h k hk, zeros_getElem? hk]
  next hk => rw [List.getElem?_eq_none (by rw [zeros_length]; omega)]

namespace Machine

/-! ### The states of a stream -/

theorem withInput_wf {s : State} {x : List Sample} (h : s.mem.wf s.blockSize) (hx : x.length = s.blockSize) :
    (withInput x s).mem.wf s.blockSize := by
  obtain ⟨hcoef, hprofile, hwork, hout⟩ := h
  refine ⟨hcoef, hprofile, ?_, hout⟩
  rw [withInput, List.length_append, List.length_take, hwork, hx]
  omega

/-- The first half of what `APPLY` transforms is not the host's input (40 R93). -/
theorem firstCallWork_withInput {s : State} (x : List Sample) (h : s.blockSize ≤ s.mem.work.length) :
    firstCallWork (withInput x s) = (firstCallWork s).take s.blockSize ++ x := by
  cases hf : s.status.first with
  | false => rw [firstCallWork_of_not_first hf, firstCallWork_of_not_first (s := withInput x s) hf, withInput]
  | true =>
    have hdrop : (s.mem.work.take s.blockSize ++ x).drop s.blockSize = x :=
      List.drop_left' (List.length_take_of_le h)
    rw [firstCallWork_of_first hf, firstCallWork_of_first (s := withInput x s) hf, zeroHistory, zeroHistory,
      List.take_left' (zeros_length _)]
    exact congrArg (zeros s.blockSize ++ ·) hdrop

section stream
variable {num : Numerics} {x : ℕ → List Sample} {s : State}

theorem streamBefore_blockSize (b : ℕ) : (streamBefore num x s b).blockSize = s.blockSize := by
  induction b with
  | zero => rfl
  | succ b ih => exact ih

theorem streamBefore_profile (b : ℕ) : (streamBefore num x s b).mem.profile = s.mem.profile := by
  induction b with
  | zero => rfl
  | succ b ih => exact ih

/-- The first `APPLY` of a stream finds a silent history: by the first-call zeroing, or as it stands (40 R98). -/
theorem take_firstCallWork_of_start (hlen : s.blockSize ≤ s.mem.work.length)
    (hstart : s.status.first = true ∨ ∀ k < s.blockSize, entry s.mem.work k = CZERO) :
    (firstCallWork s).take s.blockSize = zeros s.blockSize := by
  cases hf : s.status.first with
  | true => rw [firstCallWork_of_first hf, zeroHistory, List.take_left' (zeros_length _)]
  | false =>
    rw [firstCallWork_of_not_first hf]
    exact take_eq_zeros hlen (hstart.resolve_left (by simp [hf]))

variable (hsizes : s.mem.wf s.blockSize) (hx : ∀ b, (x b).length = s.blockSize)
include hsizes hx

theorem streamBefore_wf (b : ℕ) : (streamBefore num x s b).mem.wf (streamBefore num x s b).blockSize := by
  induction b with
  | zero => exact withInput_wf hsizes (hx 0)
  | succ b ih => exact withInput_wf (applyWith_wf num ih) ((hx (b + 1)).trans (streamBefore_blockSize b).symm)

/-- What each `APPLY` of the stream transforms: the block before, then the block. -/
theorem firstCallWork_streamBefore
    (hstart : s.status.first = true ∨ ∀ k < s.blockSize, entry s.mem.work k = CZERO) (b : ℕ) :
    firstCallWork (streamBefore num x s b) = streamHistory s.blockSize x b ++ x b := by
  induction b with
  | zero =>
    have ⟨_, _, hwork, _⟩ := hsizes
    rw [streamBefore, firstCallWork_withInput _ (by omega), take_firstCallWork_of_start (by omega) hstart, streamHistory]
  | succ b ih =>
    have hblk : (applyWith num (streamBefore num x s b)).blockSize = s.blockSize := streamBefore_blockSize b
    have ⟨_, _, hwork, _⟩ := streamBefore_wf (num := num) hsizes hx b
    have hsaved : firstCallWork (applyWith num (streamBefore num x s b)) =
        saveHistory s.blockSize (streamHistory s.blockSize x b ++ x b) := by
      rw [← ih, firstCallWork_of_not_first rfl, ← streamBefore_blockSize (num := num) (x := x) b]
      rfl
    have hlen := streamHistory_length hx b
    have hbuffer : (streamHistory s.blockSize x b ++ x b).length = 2 * s.blockSize := by
      rw [List.length_append, hlen, hx b]; omega
    have hlong : s.blockSize ≤ (applyWith num (streamBefore num x s b)).mem.work.length := by
      rw [← firstCallWork_of_not_first (applyWith_first num _), hsaved, saveHistory_length _ _ hbuffer]
      omega
    rw [streamBefore, firstCallWork_withInput _ (hblk ▸ hlong), hblk, hsaved, take_saveHistory hbuffer,
      List.drop_left' hlen, streamHistory]

end stream

/-- Settles O50: each `APPLY` of the stream is one within its accuracies, on the block before and the block. -/
theorem streamIsDirectConvolution : Obligations.StreamIsDirectConvolution := by
  intro num epsB epsA s c M x hepsB hepsA _ hsizes hM hstart hprofile _ hx accB accA b j hj
  have hlen : ∀ b, (x b).length = s.blockSize := fun b => (hx b).1
  have hblk := streamBefore_blockSize (num := num) (x := x) (s := s) b
  have hprof := streamBefore_profile (num := num) (x := x) (s := s) b
  have hbuffer := firstCallWork_streamBefore (num := num) hsizes hlen hstart b
  have hconv : ∑ t ∈ Finset.range M, values c t * values (streamHistory s.blockSize x b ++ x b) (s.blockSize + j - t) =
      directConv M (values c) (streamValue s.blockSize x) (b * s.blockSize + j) := by
    rw [← sum_buffer_eq_directConv (values c) (streamValue s.blockSize x) b hM]
    exact Finset.sum_congr rfl fun t _ => by rw [values_streamHistory_append hlen b (by omega)]
  have happly := applyWith_convolves (num := num) (s := streamBefore num x s b) (c := c) (M := M) hepsB hepsA
    (streamBefore_wf hsizes hlen b) (by rw [hblk]; exact hM) (by rw [hblk, hprof]; exact hprofile)
    (by rw [hblk]; exact accB) (by rw [hblk, hprof]; exact accA b) (j := j) (by rw [hblk]; exact hj)
  rw [hbuffer, hblk, hconv, sumNorm_append, sumNorm_streamHistory] at happly
  exact happly

end Machine

end Sys2Proof
end
